-- ==== Sys2Proof/Word.lean ====
section
/-! DEFINITION. The word types of the CHIP-8 core (00_scope.md R4, R7): every value is an unsigned integer. -/

namespace Sys2Proof

/-- An 8-bit value: a general register, a timer, a byte of memory, an immediate `nn` (R4, R7). -/
abbrev Byte := BitVec 8

/-- A 16-bit value: I, PC, a stack entry, an opcode (R4, R7). -/
abbrev Word := BitVec 16

/-- A 12-bit address immediate `nnn` (R71). -/
abbrev Addr12 := BitVec 12

/-- One hexadecimal digit of an opcode, the source's nibbles `a`, `x`, `y`, `n` (R6, R71). -/
abbrev Nibble := BitVec 4

/-- The number of a general register, V0 to VF (R22): any of the 16, none hard-wired. -/
abbrev Reg := Fin 16

end Sys2Proof
end

