-- ==== Sys2Proof/Config.lean ====
section
/-! DEFINITION. What an implementation fixes (the four parameters of 00_scope.md R5) and the one free value (R5 `rand`).
The value each parameter has by default stands in Sys2Proof/Machine/Params.lean. -/

namespace Sys2Proof

/-- `SHIFT_SRC` (R5, R130, R132): which register the shifts 8xy6 and 8xyE read. -/
inductive ShiftSrc where
  | vx
  | vy
  deriving DecidableEq, Repr

/-- `KEY_OOR` (R5, R195): what Ex9E and ExA1 see for a key number above 15. -/
inductive KeyOor where
  | notPressed
  | maskLowNibble
  deriving DecidableEq, Repr

/-- `ADDR_SUM` (R5, R51): what an address sum past 0xFFFF gives. -/
inductive AddrSum where
  | wrap16
  | unbounded
  deriving DecidableEq, Repr

/-- The parameters of the machine (R5). They are no state (R20): nothing in the machine ever writes them. They travel in
`Machine.State.cfg` so that every claim about every state holds for every setting of them (notes/assumptions/1.md). -/
structure Config where
  /-- `FONT`: the 80 font bytes at 0x000 to 0x04F after reset (R31). -/
  font : Vector Byte 80
  /-- `SHIFT_SRC` (R130, R132). -/
  shiftSrc : ShiftSrc
  /-- `KEY_OOR` (R195). -/
  keyOor : KeyOor
  /-- `ADDR_SUM` (R51). -/
  addrSum : AddrSum
  deriving DecidableEq, Repr

/-- FREE VALUE (notes/assumptions/2.md): the byte of the k-th random draw, `rand` of R5, R85 and R133. It has no body, so
nothing can be proved about a value of it: "no distribution or sequence is assumed" (R133). -/
opaque Config.rand : Nat → Byte

end Sys2Proof
end

