-- ==== Sys2Proof/Machine/Params.lean ====
section
/-! DEFINITION. The default value of each parameter of 00_scope.md R5: "The default is the value this spec uses in every
rule and test vector." -/

namespace Sys2Proof.Machine

/-- The default `FONT` (R31), glyph 0 to glyph F, five bytes each. PRESUMED: the spec takes these bytes "from general
knowledge, not in source" (notes/assumptions/3.md). -/
def conventionalFont : Vector Byte 80 := #v[
  0xF0, 0x90, 0x90, 0x90, 0xF0,
  0x20, 0x60, 0x20, 0x20, 0x70,
  0xF0, 0x10, 0xF0, 0x80, 0xF0,
  0xF0, 0x10, 0xF0, 0x10, 0xF0,
  0x90, 0x90, 0xF0, 0x10, 0x10,
  0xF0, 0x80, 0xF0, 0x10, 0xF0,
  0xF0, 0x80, 0xF0, 0x90, 0xF0,
  0xF0, 0x10, 0x20, 0x40, 0x40,
  0xF0, 0x90, 0xF0, 0x90, 0xF0,
  0xF0, 0x90, 0xF0, 0x10, 0xF0,
  0xF0, 0x90, 0xF0, 0x90, 0x90,
  0xE0, 0x90, 0xE0, 0x90, 0xE0,
  0xF0, 0x80, 0x80, 0x80, 0xF0,
  0xE0, 0x90, 0x90, 0x90, 0xE0,
  0xF0, 0x80, 0xF0, 0x80, 0xF0,
  0xF0, 0x80, 0xF0, 0x80, 0x80]

/-- The defaults of R5's table (92 D3, D4, D6, D11). The machine starts with them; claims hold for every setting
(notes/assumptions/1.md). -/
def defaultConfig : Config where
  font := conventionalFont
  shiftSrc := .vx
  keyOor := .notPressed
  addrSum := .wrap16

end Sys2Proof.Machine
end

