-- ==== Sys2Proof/Syntax.lean ====
section
/-! DEFINITION. The instructions: one constructor for each of the 34 rows of spec/opcode_table.json (30_encoding.md R74,
R77). A register operand `x`, `y` is a `Reg`, a byte immediate `nn` a `Byte`, an address immediate `nnn` an `Addr12` (R71,
R72); the row count `n` of Dxyn is a count, so a number, and `Instr.wellFormed` bounds it. -/

namespace Sys2Proof

/-- The instruction set (R74). The docstring of a constructor gives its pattern, its mnemonic (R77) and its rule. -/
inductive Instr where
  /-- `00E0` CLS (R170). -/
  | cls
  /-- `00EE` RET (R100). -/
  | ret
  /-- `1nnn` JP nnn (R101). -/
  | jp (nnn : Addr12)
  /-- `2nnn` CALL nnn (R102). -/
  | call (nnn : Addr12)
  /-- `3xnn` SE Vx, nn (R103). -/
  | seImm (x : Reg) (nn : Byte)
  /-- `4xnn` SNE Vx, nn (R104). -/
  | sneImm (x : Reg) (nn : Byte)
  /-- `5xy0` SE Vx, Vy (R105). -/
  | seReg (x y : Reg)
  /-- `6xnn` LD Vx, nn (R122). -/
  | ldImm (x : Reg) (nn : Byte)
  /-- `7xnn` ADD Vx, nn (R123). -/
  | addImm (x : Reg) (nn : Byte)
  /-- `8xy0` LD Vx, Vy (R124). -/
  | ldReg (x y : Reg)
  /-- `8xy1` OR Vx, Vy (R125). -/
  | orReg (x y : Reg)
  /-- `8xy2` AND Vx, Vy (R126). -/
  | andReg (x y : Reg)
  /-- `8xy3` XOR Vx, Vy (R127). -/
  | xorReg (x y : Reg)
  /-- `8xy4` ADD Vx, Vy (R128). -/
  | addReg (x y : Reg)
  /-- `8xy5` SUB Vx, Vy (R129). -/
  | subReg (x y : Reg)
  /-- `8xy6` SHR Vx, Vy (R130). -/
  | shr (x y : Reg)
  /-- `8xy7` SUBN Vx, Vy (R131). -/
  | subn (x y : Reg)
  /-- `8xyE` SHL Vx, Vy (R132). -/
  | shl (x y : Reg)
  /-- `9xy0` SNE Vx, Vy (R106). -/
  | sneReg (x y : Reg)
  /-- `Annn` LD I, nnn (R150). -/
  | ldI (nnn : Addr12)
  /-- `Bnnn` JP V0, nnn (R107). -/
  | jpV0 (nnn : Addr12)
  /-- `Cxnn` RND Vx, nn (R133). -/
  | rnd (x : Reg) (nn : Byte)
  /-- `Dxyn` DRW Vx, Vy, n (R171). -/
  | drw (x y : Reg) (n : Nat)
  /-- `Ex9E` SKP Vx (R193). -/
  | skp (x : Reg)
  /-- `ExA1` SKNP Vx (R194). -/
  | sknp (x : Reg)
  /-- `Fx07` LD Vx, DT (R190). -/
  | ldVxDT (x : Reg)
  /-- `Fx0A` LD Vx, K (R197). -/
  | ldVxK (x : Reg)
  /-- `Fx15` LD DT, Vx (R191). -/
  | ldDTVx (x : Reg)
  /-- `Fx18` LD ST, Vx (R192). -/
  | ldSTVx (x : Reg)
  /-- `Fx1E` ADD I, Vx (R151). -/
  | addI (x : Reg)
  /-- `Fx29` LD F, Vx (R152). -/
  | ldF (x : Reg)
  /-- `Fx33` LD B, Vx (R153). -/
  | ldB (x : Reg)
  /-- `Fx55` LD [I], Vx (R154). -/
  | stRegs (x : Reg)
  /-- `Fx65` LD Vx, [I] (R155). -/
  | ldRegs (x : Reg)
  deriving DecidableEq, Repr

/-- Why a bit pattern is no instruction: one name for each row of R90's table of illegal opcodes, and one for a byte
sequence too short to hold an opcode (R70: every instruction is 2 bytes long). -/
inductive DecodeError where
  /-- `0nnn` other than 00E0 and 00EE. -/
  | notClsOrRet
  /-- `5xyn` with n ≠ 0. -/
  | seRegNibble
  /-- `8xyn` with n in 8, 9, A, B, C, D, F. -/
  | aluSelector
  /-- `9xyn` with n ≠ 0. -/
  | sneRegNibble
  /-- `Exnn` with nn neither 9E nor A1. -/
  | keySelector
  /-- `Fxnn` with nn none of 07, 0A, 15, 18, 1E, 29, 33, 55, 65. -/
  | miscSelector
  /-- Fewer than two bytes. -/
  | truncated
  deriving DecidableEq, Repr

end Sys2Proof
end

