-- ==== Sys2Proof/Machine/State.lean ====
section
/-! DEFINITION. The state of the machine (10_state.md R20) as plain data, its value after reset (R39), and the reasons a
step could stop. -/

namespace Sys2Proof.Machine

/-- The record of an UnrecognizedOpcode (R35, R210): the opcode and the address it was fetched from. -/
structure ErrRecord where
  opcode : Word
  addr : Word
  deriving DecidableEq, Repr

/-- The display, DISP[row][col]: 32 rows of 64 bits, `true` meaning lit (R32, R180). -/
abbrev Display := Vector (Vector Bool 64) 32

/-- The state tuple of R20, in its order, and after it two fields of the model's own. -/
structure State where
  /-- V[0] to V[15], the general registers V0 to VF (R22). -/
  v : Vector Byte 16
  /-- The address register I, 16 bits, never masked (R25). -/
  i : Word
  /-- The program counter, 16 bits (R26). -/
  pc : Word
  /-- STACK[0] to STACK[15], the return addresses (R27). -/
  stack : Vector Word 16
  /-- The stack size counter, 0 to 16 (R27). -/
  sp : Fin 17
  /-- The delay timer (R28). -/
  dt : Byte
  /-- The sound timer (R28). -/
  st : Byte
  /-- KEY[0] to KEY[15], `true` meaning pressed (R29). -/
  key : Vector Bool 16
  /-- The waiting register: none, or the register a key-wait will write (R34). -/
  wait : Option Reg
  /-- MEM[0] to MEM[4095] (R30), as the cells that differ from what Memory.unlisted says, by rising address. -/
  mem : List Host.Cell
  /-- DISP (R32). -/
  disp : Display
  /-- CHANGED (R33). -/
  changed : Bool
  /-- The error state: none, or the opcode and fetch address of the halt (R35). -/
  err : Option ErrRecord
  /-- THE MODEL'S OWN: the parameters of R5, which nothing ever writes (notes/assumptions/1.md). -/
  cfg : Config
  /-- THE MODEL'S OWN: how many random draws have been taken, the index of the next one (notes/assumptions/2.md). -/
  draws : Nat
  deriving DecidableEq, Repr

/-- The state after `RESET` (R39, R240) of a machine with the parameters `cfg` whose random source has given `draws` draws:
every element of R39's table at the value it gives. Memory lists nothing, so it reads as the font and zeros. -/
def State.resetWith (cfg : Config) (draws : Nat) : State where
  v := Vector.replicate 16 0
  i := 0
  pc := 0x200
  stack := Vector.replicate 16 0
  sp := 0
  dt := 0
  st := 0
  key := Vector.replicate 16 false
  wait := none
  mem := []
  disp := Vector.replicate 32 (Vector.replicate 64 false)
  changed := false
  err := none
  cfg := cfg
  draws := draws

/-- The machine right after construction, which is a reset (R240), with R5's default parameters and no draw taken. -/
def State.reset : State := State.resetWith defaultConfig 0

/-- The engine states (R36). They are no register of their own: `State.engine` computes them from `wait` and `err`. -/
inductive Engine where
  | running
  | waitingForKey
  | halted
  deriving DecidableEq, Repr

/-- The reasons a step could stop with a fault. There is none: the block's one exception is taken as a next state (R211),
and R213 gives every other unusual condition a silent effect. An empty type says so (safe: it adds no stop). -/
inductive Fault where
  deriving DecidableEq, Repr

/-- The reasons a step could be refused. -/
inductive Refusal where
  /-- Raised by exec's arm for an instruction that has no meaning yet, named by its mnemonic; no arm of this model raises it
  (safe: it stops). -/
  | notModelled (mnemonic : String)
  deriving DecidableEq, Repr

end Sys2Proof.Machine
end

