-- ==== Sys2Proof/Machine/Memory.lean ====
section
/-! DEFINITION. The memory image (20_memory.md R50 to R54, R59) as a list of cells in one canonical form. -/

namespace Sys2Proof.Machine

/-- The memory has 4096 bytes, addresses 0x000 to 0xFFF (R50). -/
def memSize : Nat := 4096

/-- What an address that no cell lists reads as: the reset contents (R39), which are the font at 0x000 to 0x04F and zero
elsewhere (R59). -/
def Memory.unlisted (font : Vector Byte 80) (a : Nat) : Byte :=
  if h : a < 80 then font[a] else 0

/-- The byte at address `a` of the memory that lists the cells given. -/
def Memory.read (font : Vector Byte 80) : List Host.Cell → Nat → Byte
  | [], a => Memory.unlisted font a
  | c :: m, a => if c.1 = a then c.2 else Memory.read font m a

/-- The cells without those of address `a`. -/
def Memory.erase (a : Nat) : List Host.Cell → List Host.Cell
  | [] => []
  | c :: m => if c.1 = a then Memory.erase a m else c :: Memory.erase a m

/-- The cells with `(a, b)` before the first one of a higher address. -/
def Memory.insert (a : Nat) (b : Byte) : List Host.Cell → List Host.Cell
  | [] => [(a, b)]
  | c :: m => if a < c.1 then (a, b) :: c :: m else c :: Memory.insert a b m

/-- Stores `b` at `a`. Storing what an unlisted address reads as leaves no cell, so the form stays canonical. -/
def Memory.write (font : Vector Byte 80) (m : List Host.Cell) (a : Nat) (b : Byte) : List Host.Cell :=
  if b = Memory.unlisted font a then Memory.erase a m else Memory.insert a b (Memory.erase a m)

/-- The canonical form: addresses strictly rising, each below 4096, and no cell equal to what its address reads as
unlisted. `lo` is a bound below which no address lies. -/
def Memory.wfFrom (font : Vector Byte 80) : Nat → List Host.Cell → Bool
  | _, [] => true
  | lo, c :: m =>
    decide (lo ≤ c.1) && decide (c.1 < memSize) && decide (c.2 ≠ Memory.unlisted font c.1) && Memory.wfFrom font (c.1 + 1) m

/-- The memory is in its canonical form. -/
def Memory.wf (font : Vector Byte 80) (m : List Host.Cell) : Bool := Memory.wfFrom font 0 m

end Sys2Proof.Machine
end

