-- ==== Sys2Proof/Machine/Ops.lean ====
section
/-! DEFINITION. The named operations over registers, memory, stack, display and error state, which every meaning is
written with; taking the one exception among them. -/

namespace Sys2Proof.Machine

/-! ### Truncation (R7) -/

/-- `trunc8`: an exact integer written into an 8-bit register. -/
def trunc8 (n : Nat) : Byte := BitVec.ofNat 8 n

/-- `trunc16`: an exact integer written into I, PC or a stack entry. -/
def trunc16 (n : Nat) : Word := BitVec.ofNat 16 n

/-! ### General registers, I and PC (R22, R25, R26) -/

/-- VF, the 16th general register (R23). -/
def vf : Reg := 15

/-- The 16 register numbers (also the 16 key numbers), ascending. -/
def allRegs : List Reg := [0, 1, 2, 3, 4, 5, 6, 7, 8, 9, 10, 11, 12, 13, 14, 15]

/-- The registers V0 to Vx that Fx55 and Fx65 move, ascending (R154, R155). -/
def regsUpTo (x : Reg) : List Reg := allRegs.take (x.val + 1)

/-- `V[r]`. -/
def State.readV (s : State) (r : Reg) : Byte := s.v[r]

/-- `V[r] <- b`. No register is hard-wired (R22). -/
def State.writeV (s : State) (r : Reg) (b : Byte) : State := { s with v := s.v.set r b }

/-- `I <- w`. -/
def State.writeI (s : State) (w : Word) : State := { s with i := w }

/-- `PC <- w`. -/
def State.writePc (s : State) (w : Word) : State := { s with pc := w }

/-- `PC <- trunc16(PC + 2)`: the pre-dispatch increment (R82), and once more when a skip is taken (R108). -/
def State.advancePc (s : State) : State := s.writePc (trunc16 (s.pc.toNat + 2))

/-- The skip of R108: two bytes further when the condition holds, else PC stays at the next instruction. -/
def State.skipIf (s : State) (c : Bool) : State := if c then s.advancePc else s

/-! ### Memory (R51 to R53) -/

/-- `ea(base, k)` (R51): the address of an access, under either setting of `ADDR_SUM`. -/
def State.ea (s : State) (base : Word) (k : Nat) : Nat :=
  match s.cfg.addrSum with
  | .wrap16 => (base.toNat + k) % 65536
  | .unbounded => base.toNat + k

/-- `MemRead(a, 1)` (R52): zero at 4096 and above. -/
def State.memRead (s : State) (a : Nat) : Byte :=
  if a < memSize then Memory.read s.cfg.font s.mem a else 0

/-- `MemWrite(a, 1, b)` (R53): dropped at 4096 and above. -/
def State.memWrite (s : State) (a : Nat) (b : Byte) : State :=
  if a < memSize then { s with mem := Memory.write s.cfg.font s.mem a b } else s

/-- The memory of the state is in its canonical form. -/
def State.memWf (s : State) : Bool := Memory.wf s.cfg.font s.mem

/-! ### Call stack (R27) -/

/-- A push. At SP = 16 it changes nothing (R102). -/
def State.push (s : State) (w : Word) : State :=
  if h : s.sp.val < 16 then
    { s with stack := s.stack.set s.sp.val w, sp := ⟨s.sp.val + 1, Nat.succ_lt_succ h⟩ }
  else s

/-- A pop into PC. At SP = 0 it changes nothing (R100). The entry stays in STACK. -/
def State.popPc (s : State) : State :=
  if h : 0 < s.sp.val then
    { s with
      sp := ⟨s.sp.val - 1, Nat.lt_of_le_of_lt (Nat.sub_le _ _) s.sp.isLt⟩
      pc := s.stack[s.sp.val - 1]'(by omega) }
  else s

/-! ### Timers, keys, key-wait (R28, R29, R34) -/

/-- `DT <- b`. -/
def State.writeDT (s : State) (b : Byte) : State := { s with dt := b }

/-- `ST <- b`. -/
def State.writeST (s : State) (b : Byte) : State := { s with st := b }

/-- `KEY[k]`. -/
def State.readKey (s : State) (k : Reg) : Bool := s.key[k]

/-- `KEY[k] <- p`. Only the host does it (R29). -/
def State.writeKey (s : State) (k : Reg) (p : Bool) : State := { s with key := s.key.set k p }

/-- `WAIT <- w`. -/
def State.writeWait (s : State) (w : Option Reg) : State := { s with wait := w }

/-- The least pressed key, if one is pressed (R81). -/
def State.leastKey (s : State) : Option Reg := allRegs.find? (fun k => s.readKey k)

/-! ### Display (R32, R33, R180) -/

/-- DISP[row][col]. -/
def State.pixel (s : State) (row : Fin 32) (col : Fin 64) : Bool := (s.disp[row])[col]

/-- `DISP[row][col] <- b`. -/
def State.setPixel (s : State) (row : Fin 32) (col : Fin 64) (b : Bool) : State :=
  { s with disp := s.disp.set row ((s.disp[row]).set col b) }

/-- Some pixel is lit. -/
def State.anyLit (s : State) : Bool := s.disp.toList.any (fun r => r.toList.any (fun b => b))

/-- Every pixel is turned off. -/
def State.clearDisplay (s : State) : State :=
  { s with disp := Vector.replicate 32 (Vector.replicate 64 false) }

/-- `CHANGED <- 1` when a pixel has flipped, else CHANGED as it was: the engine never clears it (R33). -/
def State.markChanged (s : State) (flipped : Bool) : State := { s with changed := s.changed || flipped }

/-- `CHANGED <- 0`, which only the host does (R33, R184). -/
def State.clearChanged (s : State) : State := { s with changed := false }

/-! ### The random source (R85) -/

/-- One draw is taken: the next one has the next index. -/
def State.takeDraw (s : State) : State := { s with draws := s.draws + 1 }

/-! ### The engine state and the one exception (R36, R210 to R216) -/

/-- The engine state, a function of ERR and WAIT (R36). -/
def State.engine (s : State) : Engine :=
  match s.err, s.wait with
  | some _, _ => .halted
  | none, some _ => .waitingForKey
  | none, none => .running

/-- `raise UnrecognizedOpcode(op, fa)` (R211): ERR records the opcode and its fetch address, and nothing else is written.
There is no vector, no saved PC beside the record and no mode (R214), and no instruction returns from it (R216): the
machine is Halted until `HostOp.reset`. -/
def State.raiseUnrecognizedOpcode (s : State) (op fa : Word) : State := { s with err := some ⟨op, fa⟩ }

end Sys2Proof.Machine
end

