-- ==== Sys2Proof/Machine/Flags.lean ====
section
/-! DEFINITION. Every flag computation: VF is the only flag (41_alu.md R120; 10_state.md R23), written as a 0 or 1 value. -/

namespace Sys2Proof.Machine

/-- A flag as the byte VF holds. -/
def flagByte (f : Bool) : Byte := if f then 1 else 0

/-- `V[F] <- f`. Written after the result, so that at x = F the flag is what VF ends with (R121). -/
def State.writeFlag (s : State) (f : Bool) : State := s.writeV vf (flagByte f)

/-- Carry of 8xy4: the exact sum exceeds 255 (R120, R128). -/
def carry (a b : Byte) : Bool := decide (255 < a.toNat + b.toNat)

/-- No borrow in `a - b` (8xy5, and 8xy7 with the operands exchanged): the minuend is at least the subtrahend (R120). -/
def noBorrow (a b : Byte) : Bool := decide (b.toNat ≤ a.toNat)

/-- The bit 8xy6 shifts out (R130). -/
def lowBit (b : Byte) : Bool := b.getLsbD 0

/-- The bit 8xyE shifts out (R132). -/
def highBit (b : Byte) : Bool := b.getLsbD 7

/-- A pixel collides when it goes from lit to unlit (R171). -/
def collides (old new : Bool) : Bool := old && !new

end Sys2Proof.Machine
end

