-- ==== Sys2Proof/Machine/Operands.lean ====
section
/-! DEFINITION. The operand forms: which register a shift reads, which key a register names, the addresses an instruction
forms, the digits and sprite bits it takes apart. -/

namespace Sys2Proof.Machine

/-- `zext_16(nnn)` (R72): an address immediate written to PC or I. -/
def zext16 (nnn : Addr12) : Word := nnn.setWidth 16

/-- The register the shifts 8xy6 and 8xyE read (R130, R132). -/
def State.shiftReg (s : State) (x y : Reg) : Reg :=
  match s.cfg.shiftSrc with
  | .vx => x
  | .vy => y

/-- A key number taken from the low nibble of a register value. -/
def lowKey (b : Byte) : Reg := ⟨b.toNat % 16, Nat.mod_lt _ (by decide)⟩

/-- `key_pressed(b)` (R195): KEY[b] up to 15; above, no key or the low nibble's, as `KEY_OOR` says. -/
def State.keyPressed (s : State) (b : Byte) : Bool :=
  if b.toNat ≤ 15 then s.readKey (lowKey b)
  else
    match s.cfg.keyOor with
    | .notPressed => false
    | .maskLowNibble => s.readKey (lowKey b)

/-- The address of the glyph for the low nibble of a register (R152). -/
def glyphAddr (b : Byte) : Word := trunc16 ((b.toNat % 16) * 5)

/-- The target of Bnnn (R107). -/
def jumpSum (nnn : Addr12) (b : Byte) : Word := trunc16 (nnn.toNat + b.toNat)

/-- The hundreds digit of a byte (R153). -/
def bcdHundreds (b : Byte) : Byte := trunc8 (b.toNat / 100)

/-- The tens digit of a byte (R153). -/
def bcdTens (b : Byte) : Byte := trunc8 (b.toNat / 10 % 10)

/-- The ones digit of a byte (R153). -/
def bcdOnes (b : Byte) : Byte := trunc8 (b.toNat % 10)

/-- The bit of a sprite row at column offset `col`, bit 7 leftmost (R181). -/
def spriteBit (b : Byte) (col : Nat) : Bool := b.getLsbD (7 - col)

end Sys2Proof.Machine
end

