-- ==== Sys2Proof/Machine/Alu.lean ====
section
/-! DEFINITION. Register arithmetic and logic (41_alu.md): 6xnn 7xnn 8xy0 to 8xyE Cxnn. Operands are read from the state
before any write, V[x] is written next and VF last (R121). -/

namespace Sys2Proof.Machine

/-- `6xnn` LD Vx, nn (R122). -/
def execLdImm (x : Reg) (nn : Byte) (s : State) : Host.Outcome State Fault Refusal := .next (s.writeV x nn)

/-- `7xnn` ADD Vx, nn (R123): no flag. -/
def execAddImm (x : Reg) (nn : Byte) (s : State) : Host.Outcome State Fault Refusal :=
  .next (s.writeV x (trunc8 ((s.readV x).toNat + nn.toNat)))

/-- `8xy0` LD Vx, Vy (R124). -/
def execLdReg (x y : Reg) (s : State) : Host.Outcome State Fault Refusal := .next (s.writeV x (s.readV y))

/-- `8xy1` OR Vx, Vy (R125): VF is not reset. -/
def execOrReg (x y : Reg) (s : State) : Host.Outcome State Fault Refusal :=
  .next (s.writeV x (s.readV x ||| s.readV y))

/-- `8xy2` AND Vx, Vy (R126): VF is not reset. -/
def execAndReg (x y : Reg) (s : State) : Host.Outcome State Fault Refusal :=
  .next (s.writeV x (s.readV x &&& s.readV y))

/-- `8xy3` XOR Vx, Vy (R127): VF is not reset. -/
def execXorReg (x y : Reg) (s : State) : Host.Outcome State Fault Refusal :=
  .next (s.writeV x (s.readV x ^^^ s.readV y))

/-- `8xy4` ADD Vx, Vy (R128): VF is the carry. -/
def execAddReg (x y : Reg) (s : State) : Host.Outcome State Fault Refusal :=
  .next ((s.writeV x (trunc8 ((s.readV x).toNat + (s.readV y).toNat))).writeFlag (carry (s.readV x) (s.readV y)))

/-- The difference `trunc8(a - b + 256)` of R129 and R131. -/
def difference (a b : Byte) : Byte := trunc8 (a.toNat + 256 - b.toNat)

/-- `8xy5` SUB Vx, Vy (R129): VF is 1 when nothing is borrowed. -/
def execSubReg (x y : Reg) (s : State) : Host.Outcome State Fault Refusal :=
  .next ((s.writeV x (difference (s.readV x) (s.readV y))).writeFlag (noBorrow (s.readV x) (s.readV y)))

/-- `8xy7` SUBN Vx, Vy (R131): the operands of 8xy5 exchanged. -/
def execSubn (x y : Reg) (s : State) : Host.Outcome State Fault Refusal :=
  .next ((s.writeV x (difference (s.readV y) (s.readV x))).writeFlag (noBorrow (s.readV y) (s.readV x)))

/-- `8xy6` SHR Vx, Vy (R130): VF is the bit shifted out. -/
def execShr (x y : Reg) (s : State) : Host.Outcome State Fault Refusal :=
  .next ((s.writeV x (s.readV (s.shiftReg x y) >>> 1)).writeFlag (lowBit (s.readV (s.shiftReg x y))))

/-- `8xyE` SHL Vx, Vy (R132): VF is the bit shifted out. -/
def execShl (x y : Reg) (s : State) : Host.Outcome State Fault Refusal :=
  .next ((s.writeV x (s.readV (s.shiftReg x y) <<< 1)).writeFlag (highBit (s.readV (s.shiftReg x y))))

/-- `V[x] <- nn & r` for a drawn byte `r` (R133); the draw is used up. -/
def State.loadRandom (s : State) (x : Reg) (nn r : Byte) : State := (s.writeV x (nn &&& r)).takeDraw

/-- `Cxnn` RND Vx, nn (R133): one draw, a free value (R85; notes/assumptions/2.md). -/
def execRnd (x : Reg) (nn : Byte) (s : State) : Host.Outcome State Fault Refusal :=
  .next (s.loadRandom x nn (Config.rand s.draws))

end Sys2Proof.Machine
end

