-- ==== Sys2Proof/Machine/Index.lean ====
section
/-! DEFINITION. The address register and memory transfers (42_index_memory.md): Annn Fx1E Fx29 Fx33 Fx55 Fx65. Every
access is at `ea(I, k)`, and none of the transfers changes I (R156). -/

namespace Sys2Proof.Machine

/-- `Annn` LD I, nnn (R150). -/
def execLdI (nnn : Addr12) (s : State) : Host.Outcome State Fault Refusal := .next (s.writeI (zext16 nnn))

/-- `Fx1E` ADD I, Vx (R151): no flag, and no mask to 12 bits. -/
def execAddI (x : Reg) (s : State) : Host.Outcome State Fault Refusal :=
  .next (s.writeI (trunc16 (s.i.toNat + (s.readV x).toNat)))

/-- `Fx29` LD F, Vx (R152). -/
def execLdF (x : Reg) (s : State) : Host.Outcome State Fault Refusal := .next (s.writeI (glyphAddr (s.readV x)))

/-- The three stores of R153, in its order. -/
def State.storeBcd (s : State) (b : Byte) : State :=
  let s0 := s.memWrite (s.ea s.i 0) (bcdHundreds b)
  let s1 := s0.memWrite (s.ea s.i 1) (bcdTens b)
  s1.memWrite (s.ea s.i 2) (bcdOnes b)

/-- `Fx33` LD B, Vx (R153). -/
def execLdB (x : Reg) (s : State) : Host.Outcome State Fault Refusal := .next (s.storeBcd (s.readV x))

/-- The stores of R154, one for each register listed: V[k] at ea(I, k). -/
def State.storeRegs (s : State) (rs : List Reg) : State :=
  rs.foldl (fun t k => t.memWrite (t.ea t.i k.val) (t.readV k)) s

/-- `Fx55` LD [I], Vx (R154): V0 to Vx, ascending. -/
def execStRegs (x : Reg) (s : State) : Host.Outcome State Fault Refusal := .next (s.storeRegs (regsUpTo x))

/-- The loads of R155, one for each register listed: V[k] from ea(I, k). -/
def State.loadRegs (s : State) (rs : List Reg) : State :=
  rs.foldl (fun t k => t.writeV k (t.memRead (t.ea t.i k.val))) s

/-- `Fx65` LD Vx, [I] (R155): V0 to Vx, ascending. -/
def execLdRegs (x : Reg) (s : State) : Host.Outcome State Fault Refusal := .next (s.loadRegs (regsUpTo x))

end Sys2Proof.Machine
end

