-- ==== Sys2Proof/Machine/Surface.lean ====
section
/-! DEFINITION. The display surface (43_display.md): 00E0 Dxyn. -/

namespace Sys2Proof.Machine

/-- `00E0` CLS (R170): CHANGED is set when a pixel was lit, and VF is not written. -/
def execCls (s : State) : Host.Outcome State Fault Refusal := .next (s.markChanged s.anyLit).clearDisplay

/-- One pixel of the blit (R171): the innermost body of its loops, on the state and the running `collided`. The target is
column `px`, row `py`; off the 64 by 32 grid nothing happens (R182). -/
def blitPixel (px py : Nat) (bit : Bool) (acc : State × Bool) : State × Bool :=
  if h : px < 64 ∧ py < 32 then
    let old := acc.1.pixel ⟨py, h.2⟩ ⟨px, h.1⟩
    let new := old ^^ bit
    ((acc.1.setPixel ⟨py, h.2⟩ ⟨px, h.1⟩ new).markChanged (old != new), acc.2 || collides old new)
  else acc

/-- One sprite row (R171): columns 0 to 7 of the byte `b`, at column `sx` of row `py`. -/
def blitRow (sx py : Nat) (b : Byte) (acc : State × Bool) : State × Bool :=
  (List.range 8).foldl (fun acc col => blitPixel (sx + col) py (spriteBit b col) acc) acc

/-- The rows of a sprite (R171): row `row` is the byte at ea(I, row). -/
def blitRows (sx sy n : Nat) (acc : State × Bool) : State × Bool :=
  (List.range n).foldl (fun acc row => blitRow sx (sy + row) (acc.1.memRead (acc.1.ea acc.1.i row)) acc) acc

/-- The blit of R171 before its last line: the drawn state and whether a pixel collided. The origin is exact (R182). -/
def State.blit (s : State) (x y : Reg) (n : Nat) : State × Bool :=
  blitRows (s.readV x).toNat (s.readV y).toNat n (s, false)

/-- `Dxyn` DRW Vx, Vy, n (R171): VF is written last, always. -/
def execDrw (x y : Reg) (n : Nat) (s : State) : Host.Outcome State Fault Refusal :=
  .next ((s.blit x y n).1.writeFlag (s.blit x y n).2)

end Sys2Proof.Machine
end

