-- ==== Sys2Proof/Machine/Timers.lean ====
section
/-! DEFINITION. Timers and keypad (44_timers_keypad.md): Fx07 Fx15 Fx18 Ex9E ExA1 Fx0A. -/

namespace Sys2Proof.Machine

/-- `Fx07` LD Vx, DT (R190). -/
def execLdVxDT (x : Reg) (s : State) : Host.Outcome State Fault Refusal := .next (s.writeV x s.dt)

/-- `Fx15` LD DT, Vx (R191). -/
def execLdDTVx (x : Reg) (s : State) : Host.Outcome State Fault Refusal := .next (s.writeDT (s.readV x))

/-- `Fx18` LD ST, Vx (R192). -/
def execLdSTVx (x : Reg) (s : State) : Host.Outcome State Fault Refusal := .next (s.writeST (s.readV x))

/-- `Ex9E` SKP Vx (R193). -/
def execSkp (x : Reg) (s : State) : Host.Outcome State Fault Refusal :=
  .next (s.skipIf (s.keyPressed (s.readV x)))

/-- `ExA1` SKNP Vx (R194). -/
def execSknp (x : Reg) (s : State) : Host.Outcome State Fault Refusal :=
  .next (s.skipIf (!s.keyPressed (s.readV x)))

/-- `Fx0A` LD Vx, K (R197): the wait begins; a later step completes it (R81). -/
def execLdVxK (x : Reg) (s : State) : Host.Outcome State Fault Refusal := .next (s.writeWait (some x))

end Sys2Proof.Machine
end

