-- ==== Sys2Proof/Decode.lean ====
section
/-! DEFINITION. Decoding (30_encoding.md R70 to R76, R90) and, after it, encoding (R73). -/

namespace Sys2Proof

/-! ### Fields of an opcode (R71) -/

/-- `a = op[15:12]`, the major opcode. -/
def opA (op : Word) : Nibble := op.extractLsb' 12 4

/-- `x = op[11:8]`. -/
def opX (op : Word) : Nibble := op.extractLsb' 8 4

/-- `y = op[7:4]`. -/
def opY (op : Word) : Nibble := op.extractLsb' 4 4

/-- `n = op[3:0]`. -/
def opN (op : Word) : Nibble := op.extractLsb' 0 4

/-- `nn = op[7:0]`. -/
def opNN (op : Word) : Byte := op.extractLsb' 0 8

/-- `nnn = op[11:0]`. -/
def opNNN (op : Word) : Addr12 := op.extractLsb' 0 12

/-- A nibble selects V[0] to V[15] directly; every value is legal (R72). -/
def regOf (b : Nibble) : Reg := b.toFin

/-! ### Decoding (R74) -/

/-- Row a = 0 of R74: the whole opcode must equal one of the two. -/
def decodeSys (op : Word) : Except DecodeError Instr :=
  match op.toNat with
  | 0x00E0 => .ok .cls
  | 0x00EE => .ok .ret
  | _ => .error .notClsOrRet

/-- Row a = 5 of R74: n = 0, read strictly (92 D37). -/
def decodeSeReg (x y n : Nibble) : Except DecodeError Instr :=
  match n.toNat with
  | 0x0 => .ok (.seReg (regOf x) (regOf y))
  | _ => .error .seRegNibble

/-- Row a = 8 of R74, with the selectors of R76. -/
def decodeAlu (x y n : Nibble) : Except DecodeError Instr :=
  match n.toNat with
  | 0x0 => .ok (.ldReg (regOf x) (regOf y))
  | 0x1 => .ok (.orReg (regOf x) (regOf y))
  | 0x2 => .ok (.andReg (regOf x) (regOf y))
  | 0x3 => .ok (.xorReg (regOf x) (regOf y))
  | 0x4 => .ok (.addReg (regOf x) (regOf y))
  | 0x5 => .ok (.subReg (regOf x) (regOf y))
  | 0x6 => .ok (.shr (regOf x) (regOf y))
  | 0x7 => .ok (.subn (regOf x) (regOf y))
  | 0xE => .ok (.shl (regOf x) (regOf y))
  | _ => .error .aluSelector

/-- Row a = 9 of R74: n = 0, read strictly (92 D37). -/
def decodeSneReg (x y n : Nibble) : Except DecodeError Instr :=
  match n.toNat with
  | 0x0 => .ok (.sneReg (regOf x) (regOf y))
  | _ => .error .sneRegNibble

/-- Row a = E of R74. -/
def decodeKey (x : Nibble) (nn : Byte) : Except DecodeError Instr :=
  match nn.toNat with
  | 0x9E => .ok (.skp (regOf x))
  | 0xA1 => .ok (.sknp (regOf x))
  | _ => .error .keySelector

/-- Row a = F of R74. -/
def decodeMisc (x : Nibble) (nn : Byte) : Except DecodeError Instr :=
  match nn.toNat with
  | 0x07 => .ok (.ldVxDT (regOf x))
  | 0x0A => .ok (.ldVxK (regOf x))
  | 0x15 => .ok (.ldDTVx (regOf x))
  | 0x18 => .ok (.ldSTVx (regOf x))
  | 0x1E => .ok (.addI (regOf x))
  | 0x29 => .ok (.ldF (regOf x))
  | 0x33 => .ok (.ldB (regOf x))
  | 0x55 => .ok (.stRegs (regOf x))
  | 0x65 => .ok (.ldRegs (regOf x))
  | _ => .error .miscSelector

/-- The major-opcode map (R74). Decoding reads the 16 opcode bits and nothing else (R75). A nibble is at most 15, so the
last line is a = F. -/
def decode (op : Word) : Except DecodeError Instr :=
  match (opA op).toNat with
  | 0x0 => decodeSys op
  | 0x1 => .ok (.jp (opNNN op))
  | 0x2 => .ok (.call (opNNN op))
  | 0x3 => .ok (.seImm (regOf (opX op)) (opNN op))
  | 0x4 => .ok (.sneImm (regOf (opX op)) (opNN op))
  | 0x5 => decodeSeReg (opX op) (opY op) (opN op)
  | 0x6 => .ok (.ldImm (regOf (opX op)) (opNN op))
  | 0x7 => .ok (.addImm (regOf (opX op)) (opNN op))
  | 0x8 => decodeAlu (opX op) (opY op) (opN op)
  | 0x9 => decodeSneReg (opX op) (opY op) (opN op)
  | 0xA => .ok (.ldI (opNNN op))
  | 0xB => .ok (.jpV0 (opNNN op))
  | 0xC => .ok (.rnd (regOf (opX op)) (opNN op))
  | 0xD => .ok (.drw (regOf (opX op)) (regOf (opY op)) (opN op).toNat)
  | 0xE => decodeKey (opX op) (opNN op)
  | _ => decodeMisc (opX op) (opNN op)

/-- The opcode of two bytes, the first in the high half: big-endian (R55). -/
def opcodeOfBytes (hi lo : Byte) : Word := hi ++ lo

/-- The first of an opcode's two bytes, op[15:8] (R55). -/
def opcodeHi (op : Word) : Byte := op.extractLsb' 8 8

/-- The second of an opcode's two bytes, op[7:0] (R55). -/
def opcodeLo (op : Word) : Byte := op.extractLsb' 0 8

/-- The decoder over any byte sequence: the instruction its first two bytes hold, with the bytes after them (R70, R55). -/
def decodeBytes : List Byte → Except DecodeError (Instr × List Byte)
  | hi :: lo :: rest =>
    match decode (opcodeOfBytes hi lo) with
    | .ok i => .ok (i, rest)
    | .error e => .error e
  | _ => .error .truncated

/-- The opcode whose bits are the low `nbits` bits of `w`, numbered as spec/opcode_table.json numbers them; every bit above
is 0. Every row of the table has 16 bits (R70). -/
def tableOpcode (nbits w : Nat) : Word := BitVec.ofNat 16 (w % 2 ^ nbits)

/-- What the decoder reads from a table word laid out as the hardware stores it: the high byte first (R55). -/
def decodeTableWord (nbits w : Nat) : Option Instr :=
  match decodeBytes [opcodeHi (tableOpcode nbits w), opcodeLo (tableOpcode nbits w)] with
  | .ok (i, _) => some i
  | .error _ => none

/-! ### Encoding (the formats of R73) -/

/-- The four bits that name a register. -/
def regBits (r : Reg) : Nibble := BitVec.ofFin r

/-- Format `NNN`: `aaaa nnnn nnnn nnnn`. -/
def wordNNN (a : Nibble) (nnn : Addr12) : Word := a ++ nnn

/-- Formats `XNN` and `XSS`: `aaaa xxxx nnnn nnnn`. -/
def wordXNN (a : Nibble) (x : Reg) (nn : Byte) : Word := a ++ regBits x ++ nn

/-- Formats `XY0`, `XYS` and `XYN`: `aaaa xxxx yyyy nnnn`. -/
def wordXYN (a : Nibble) (x y : Reg) (n : Nibble) : Word := a ++ regBits x ++ regBits y ++ n

/-- The opcode of an instruction, from the encoding line of its rule and its row of spec/opcode_table.json. -/
def encode : Instr → Word
  | .cls => 0x00E0#16
  | .ret => 0x00EE#16
  | .jp nnn => wordNNN 0x1#4 nnn
  | .call nnn => wordNNN 0x2#4 nnn
  | .seImm x nn => wordXNN 0x3#4 x nn
  | .sneImm x nn => wordXNN 0x4#4 x nn
  | .seReg x y => wordXYN 0x5#4 x y 0x0#4
  | .ldImm x nn => wordXNN 0x6#4 x nn
  | .addImm x nn => wordXNN 0x7#4 x nn
  | .ldReg x y => wordXYN 0x8#4 x y 0x0#4
  | .orReg x y => wordXYN 0x8#4 x y 0x1#4
  | .andReg x y => wordXYN 0x8#4 x y 0x2#4
  | .xorReg x y => wordXYN 0x8#4 x y 0x3#4
  | .addReg x y => wordXYN 0x8#4 x y 0x4#4
  | .subReg x y => wordXYN 0x8#4 x y 0x5#4
  | .shr x y => wordXYN 0x8#4 x y 0x6#4
  | .subn x y => wordXYN 0x8#4 x y 0x7#4
  | .shl x y => wordXYN 0x8#4 x y 0xE#4
  | .sneReg x y => wordXYN 0x9#4 x y 0x0#4
  | .ldI nnn => wordNNN 0xA#4 nnn
  | .jpV0 nnn => wordNNN 0xB#4 nnn
  | .rnd x nn => wordXNN 0xC#4 x nn
  | .drw x y n => wordXYN 0xD#4 x y (BitVec.ofNat 4 n)
  | .skp x => wordXNN 0xE#4 x 0x9E#8
  | .sknp x => wordXNN 0xE#4 x 0xA1#8
  | .ldVxDT x => wordXNN 0xF#4 x 0x07#8
  | .ldVxK x => wordXNN 0xF#4 x 0x0A#8
  | .ldDTVx x => wordXNN 0xF#4 x 0x15#8
  | .ldSTVx x => wordXNN 0xF#4 x 0x18#8
  | .addI x => wordXNN 0xF#4 x 0x1E#8
  | .ldF x => wordXNN 0xF#4 x 0x29#8
  | .ldB x => wordXNN 0xF#4 x 0x33#8
  | .stRegs x => wordXNN 0xF#4 x 0x55#8
  | .ldRegs x => wordXNN 0xF#4 x 0x65#8

end Sys2Proof
end

