-- ==== Sys2Proof/Machine/Fetch.lean ====
section
/-! DEFINITION. The parts of the step around the instruction (30_encoding.md R80 to R84, R90): the Halted check, the
key-wait scan, the fetch, the illegal opcode; and placing an instruction where the next fetch reads it. -/

namespace Sys2Proof.Machine

/-- The key-wait of register `x` completed by key `k` (R81): V[x] is the key's index, and the wait is over. -/
def State.completeWait (s : State) (x k : Reg) : State := (s.writeV x (trunc8 k.val)).writeWait none

/-- What a step does before its fetch (R80): none when the step ends there with nothing written, because the machine is
Halted (R84) or is waiting and no key is pressed (R81); else the state that goes on to fetch, in which a pending key-wait
has been completed by the least pressed key (R81). The order is R215's. -/
def State.beginStep (s : State) : Option State :=
  match s.err, s.wait with
  | some _, _ => none
  | none, none => some s
  | none, some x => s.leastKey.map (fun k => s.completeWait x k)

/-- The opcode at PC (R55, R82): the byte at PC is the high half, the byte at ea(PC, 1) the low half. An address at 4096
or above reads 0 (R57). -/
def State.fetchOpcode (s : State) : Word :=
  opcodeOfBytes (s.memRead s.pc.toNat) (s.memRead (s.ea s.pc 1))

/-- The step on an opcode that is no instruction (R83, R90, R211): PC has been advanced, and ERR records the opcode and
the address it was fetched from. -/
def State.illegalOpcode (s : State) : State := s.advancePc.raiseUnrecognizedOpcode s.fetchOpcode s.pc

/-- Both bytes of the opcode at PC lie in memory. -/
def State.pcInMemory (s : State) : Bool := decide (s.pc.toNat + 1 < memSize)

/-- The state, Running and with PC where an opcode can be stored: a Halted or waiting machine does not fetch, and at 0xFFF
and above memory cannot hold the two bytes, so PC is then the reset entry point (R242). Reset is such a state already. -/
def State.readyToFetch (s : State) : State :=
  if s.pcInMemory then { s with err := none, wait := none }
  else { s with err := none, wait := none, pc := 0x200 }

/-- The opcode `op` stored at PC, high byte first (R55), in a machine that fetches it with its next step. -/
def State.placeOpcode (s : State) (op : Word) : State :=
  let t := s.readyToFetch
  (t.memWrite t.pc.toNat (opcodeHi op)).memWrite (t.pc.toNat + 1) (opcodeLo op)

end Sys2Proof.Machine
end

