-- ==== Sys2Proof/Machine/Step.lean ====
section
/-! DEFINITION. One `STEP` (30_encoding.md R80), and placing an instruction for the next one. -/

namespace Sys2Proof.Machine

/-- `STEP` (R80): nothing in a Halted machine or one that waits with no key pressed; else fetch, advance PC, decode, and
run the instruction or take the exception. The `rand` input is the free value `Config.rand` (R85). -/
def step (s : State) : Host.Outcome State Fault Refusal :=
  match s.beginStep with
  | none => .next s
  | some t =>
    match decode t.fetchOpcode with
    | .ok i => exec i t.advancePc
    | .error _ => .next t.illegalOpcode

/-- `s` with the opcode-table word `w` of `nbits` bits stored where the next step fetches. How a program comes to run from
reset: the host operation `LOAD` stores it (R243, R244); this stands for that load (notes/assumptions/6.md). -/
def State.withFetchWord (s : State) (nbits w : Nat) : State := s.placeOpcode (tableOpcode nbits w)

end Sys2Proof.Machine
end

