-- ==== Sys2Proof/Machine/HostOps.lean ====
section
/-! DEFINITION. The host operations of 00_scope.md R10: what the outside world can do to the machine. Each is atomic, and
a run is a sequence of them (R11). -/

namespace Sys2Proof.Machine

/-- The operations of R10's table, with their inputs. `STEP`'s `rand` input is the free value `Config.rand`. -/
inductive HostOp where
  /-- `RESET` (R240). -/
  | reset
  /-- `LOAD(bytes)` (R243). -/
  | load (bytes : List Byte)
  /-- `STEP` (R80). -/
  | step
  /-- `TICK` (R199). -/
  | tick
  /-- `SET_KEY(index, pressed)` (R204): any integer index. -/
  | setKey (index : Int) (pressed : Bool)
  /-- `READ_DISPLAY` (R183). -/
  | readDisplay
  /-- `READ_CHANGED` (R184). -/
  | readChanged
  /-- `CONSUME_CHANGED` (R184). -/
  | consumeChanged
  /-- `SOUND` (R200). -/
  | sound
  /-- `READ_ERROR` (R212). -/
  | readError
  /-- `READ_STATE` (R21). -/
  | readState
  deriving DecidableEq, Repr

/-- What an operation gives back to the host (the outputs of R10's table). -/
inductive Answer where
  | nothing
  | bit (b : Bool)
  | pixels (bits : List Bool)
  | error (e : Option ErrRecord)
  | state (s : State)
  deriving DecidableEq, Repr

/-- `RESET` (R39, R240, R241). The random source lies outside the block and is not touched; the parameters are no state. -/
def State.resetOp (s : State) : State := State.resetWith s.cfg s.draws

/-- The bytes of a load from address `a` up, each by MemWrite, so dropped at 4096 and above (R243). -/
def State.loadFrom : State → Nat → List Byte → State
  | s, _, [] => s
  | s, a, b :: bs => (s.memWrite a b).loadFrom (a + 1) bs

/-- `LOAD(bytes)` (R243): from 0x200. -/
def State.loadOp (s : State) (bytes : List Byte) : State := s.loadFrom 0x200 bytes

/-- One tick of one timer: down by one, and 0 stays 0 (R199). -/
def tickDown (b : Byte) : Byte := trunc8 (b.toNat - 1)

/-- `TICK` (R199). -/
def State.tickOp (s : State) : State := (s.writeDT (tickDown s.dt)).writeST (tickDown s.st)

/-- `SET_KEY(index, pressed)` (R204): an index outside 0 to 15 does nothing. -/
def State.setKeyOp (s : State) (index : Int) (pressed : Bool) : State :=
  if h : 0 ≤ index ∧ index ≤ 15 then s.writeKey ⟨index.toNat, by omega⟩ pressed else s

/-- The 2048 pixels in row-major order (R183). -/
def State.pixels (s : State) : List Bool := s.disp.toList.flatMap (fun r => r.toList)

/-- `SOUND` (R200). -/
def State.soundOn (s : State) : Bool := s.st != 0

/-- The state after an operation. -/
def HostOp.run : HostOp → State → Host.Outcome State Fault Refusal
  | .reset, s => .next s.resetOp
  | .load bytes, s => .next (s.loadOp bytes)
  | .step, s => Sys2Proof.Machine.step s
  | .tick, s => .next s.tickOp
  | .setKey index pressed, s => .next (s.setKeyOp index pressed)
  | .readDisplay, s => .next s
  | .readChanged, s => .next s
  | .consumeChanged, s => .next s.clearChanged
  | .sound, s => .next s
  | .readError, s => .next s
  | .readState, s => .next s

/-- What an operation answers, from the state it is issued in: CONSUME_CHANGED answers "the value before clearing" (R10). -/
def HostOp.answer : HostOp → State → Answer
  | .reset, _ => .nothing
  | .load _, _ => .nothing
  | .step, _ => .nothing
  | .tick, _ => .nothing
  | .setKey _ _, _ => .nothing
  | .readDisplay, s => .pixels s.pixels
  | .readChanged, s => .bit s.changed
  | .consumeChanged, s => .bit s.changed
  | .sound, s => .bit s.soundOn
  | .readError, s => .error s.err
  | .readState, s => .state s

/-- A run: the host operations one after another (R11, R256). -/
def runOps : List HostOp → State → Host.Outcome State Fault Refusal
  | [], s => .next s
  | op :: ops, s =>
    match op.run s with
    | .next t => runOps ops t
    | .fault f => .fault f
    | .refused r => .refused r

end Sys2Proof.Machine
end

