-- ==== Sys2Proof/Safety.lean ====
section
/-! DEFINITION. The terms claims are made in: what a safe state is, which states a machine can be in, what an instruction
may write, and which pixels a sprite covers. -/

namespace Sys2Proof.Machine

/-! ### Safe and reachable states -/

/-- The one way a run goes wrong is an UnrecognizedOpcode, which leaves the machine Halted (R210, R211). -/
def State.Safe (s : State) : Prop := s.engine ≠ .halted

/-- The states of a machine: those a sequence of host operations reaches from reset (R11, R40), for every setting of the
parameters and every random source. -/
inductive Reachable : State → Prop where
  | reset (cfg : Config) (draws : Nat) : Reachable (State.resetWith cfg draws)
  | op (o : HostOp) (s t : State) (hs : Reachable s) (h : o.run s = .next t) : Reachable t

/-- What holds of every state a machine can be in: memory is in its canonical form, ERR and WAIT do not hold together
(R37), and PC and the stack entries stay in the range of R40. The bound on PC in a machine that is not Halted, below R40's
own, is what makes the range inductive (R40's proof: a skip, a jump or a return leaves PC at most at 0x10FE). -/
structure Inv (s : State) : Prop where
  mem : s.memWf = true
  oneEngineState : s.err = none ∨ s.wait = none
  pcNotHalted : s.err = none → s.pc.toNat ≤ 0x10FE
  pc : s.pc.toNat ≤ 0x1100
  stack : ∀ k : Fin 16, (s.stack[k]).toNat ≤ 0x1001

/-! ### Frames -/

/-- The parts of the state beside the general registers. -/
inductive Part where
  | i
  | pc
  | stack
  | dt
  | st
  | key
  | wait
  | err
  | mem
  | disp
  | changed
  | cfg
  | draws
  deriving DecidableEq, Repr

/-- A part is in `t` what it is in `s`. Memory and display are compared byte by byte and pixel by pixel, and the stack in
all its 16 entries and its size. -/
def Part.Same : Part → State → State → Prop
  | .i, s, t => t.i = s.i
  | .pc, s, t => t.pc = s.pc
  | .stack, s, t => t.sp = s.sp ∧ t.stack = s.stack
  | .dt, s, t => t.dt = s.dt
  | .st, s, t => t.st = s.st
  | .key, s, t => ∀ k, t.readKey k = s.readKey k
  | .wait, s, t => t.wait = s.wait
  | .err, s, t => t.err = s.err
  | .mem, s, t => ∀ a, t.memRead a = s.memRead a
  | .disp, s, t => ∀ row col, t.pixel row col = s.pixel row col
  | .changed, s, t => t.changed = s.changed
  | .cfg, s, t => t.cfg = s.cfg
  | .draws, s, t => t.draws = s.draws

/-- From `s` to `t` nothing changed but the general registers `regs` and the parts `parts`. -/
def Frame (regs : List Reg) (parts : List Part) (s t : State) : Prop :=
  (∀ r, r ∉ regs → t.readV r = s.readV r) ∧ ∀ p, p ∉ parts → p.Same s t

end Sys2Proof.Machine

namespace Sys2Proof

open Machine

/-- The general registers an instruction may write (the `writes` column of R24). Fx0A writes its register in a later step,
when the key-wait completes. -/
def Instr.regWrites : Instr → List Reg
  | .cls => []
  | .ret => []
  | .jp _ => []
  | .call _ => []
  | .seImm _ _ => []
  | .sneImm _ _ => []
  | .seReg _ _ => []
  | .ldImm x _ => [x]
  | .addImm x _ => [x]
  | .ldReg x _ => [x]
  | .orReg x _ => [x]
  | .andReg x _ => [x]
  | .xorReg x _ => [x]
  | .addReg x _ => [x, vf]
  | .subReg x _ => [x, vf]
  | .shr x _ => [x, vf]
  | .subn x _ => [x, vf]
  | .shl x _ => [x, vf]
  | .sneReg _ _ => []
  | .ldI _ => []
  | .jpV0 _ => []
  | .rnd x _ => [x]
  | .drw _ _ _ => [vf]
  | .skp _ => []
  | .sknp _ => []
  | .ldVxDT x => [x]
  | .ldVxK _ => []
  | .ldDTVx _ => []
  | .ldSTVx _ => []
  | .addI _ => []
  | .ldF _ => []
  | .ldB _ => []
  | .stRegs _ => []
  | .ldRegs x => regsUpTo x

/-- The general registers an instruction reads (the `reads` column of R24), where `src` is the setting of `SHIFT_SRC`. -/
def Instr.regReads (src : ShiftSrc) : Instr → List Reg
  | .cls => []
  | .ret => []
  | .jp _ => []
  | .call _ => []
  | .seImm x _ => [x]
  | .sneImm x _ => [x]
  | .seReg x y => [x, y]
  | .ldImm _ _ => []
  | .addImm x _ => [x]
  | .ldReg _ y => [y]
  | .orReg x y => [x, y]
  | .andReg x y => [x, y]
  | .xorReg x y => [x, y]
  | .addReg x y => [x, y]
  | .subReg x y => [x, y]
  | .shr x y => match src with | .vx => [x] | .vy => [y]
  | .subn x y => [x, y]
  | .shl x y => match src with | .vx => [x] | .vy => [y]
  | .sneReg x y => [x, y]
  | .ldI _ => []
  | .jpV0 _ => [0]
  | .rnd _ _ => []
  | .drw x y _ => [x, y]
  | .skp x => [x]
  | .sknp x => [x]
  | .ldVxDT _ => []
  | .ldVxK _ => []
  | .ldDTVx x => [x]
  | .ldSTVx x => [x]
  | .addI x => [x]
  | .ldF x => [x]
  | .ldB x => [x]
  | .stRegs x => regsUpTo x
  | .ldRegs _ => []

/-- The other parts of the state an instruction may write: PC only where control is transferred (R108, R109), I only by
Annn, Fx1E and Fx29 (R25), the stack only by 2nnn and 00EE (R27), DT and ST only by Fx15 and Fx18 (R28), WAIT only by Fx0A
(R34), memory only by Fx33 and Fx55 (R50), the display and CHANGED only by 00E0 and Dxyn (R32, R33), the random source only
by Cxnn (R85). -/
def Instr.partWrites : Instr → List Part
  | .cls => [.disp, .changed]
  | .ret => [.pc, .stack]
  | .jp _ => [.pc]
  | .call _ => [.pc, .stack]
  | .seImm _ _ => [.pc]
  | .sneImm _ _ => [.pc]
  | .seReg _ _ => [.pc]
  | .ldImm _ _ => []
  | .addImm _ _ => []
  | .ldReg _ _ => []
  | .orReg _ _ => []
  | .andReg _ _ => []
  | .xorReg _ _ => []
  | .addReg _ _ => []
  | .subReg _ _ => []
  | .shr _ _ => []
  | .subn _ _ => []
  | .shl _ _ => []
  | .sneReg _ _ => [.pc]
  | .ldI _ => [.i]
  | .jpV0 _ => [.pc]
  | .rnd _ _ => [.draws]
  | .drw _ _ _ => [.disp, .changed]
  | .skp _ => [.pc]
  | .sknp _ => [.pc]
  | .ldVxDT _ => []
  | .ldVxK _ => [.wait]
  | .ldDTVx _ => [.dt]
  | .ldSTVx _ => [.st]
  | .addI _ => [.i]
  | .ldF _ => [.i]
  | .ldB _ => [.mem]
  | .stRegs _ => [.mem]
  | .ldRegs _ => []

end Sys2Proof

namespace Sys2Proof.Machine

/-! ### Sprites -/

/-- The sprite that Dxyn with these operands draws has a 1 bit on the pixel (R171, R180 to R182): the pixel lies in one of
the sprite's `n` rows and 8 columns, counted from the origin (V[x], V[y]) without wraparound, and its bit of that row's
byte is 1, bit 7 leftmost. -/
def State.SpriteCovers (s : State) (x y : Reg) (n : Nat) (row : Fin 32) (col : Fin 64) : Prop :=
  (s.readV y).toNat ≤ row.val ∧ row.val < (s.readV y).toNat + n ∧
  (s.readV x).toNat ≤ col.val ∧ col.val < (s.readV x).toNat + 8 ∧
  (s.memRead (s.ea s.i (row.val - (s.readV y).toNat))).getLsbD (7 - (col.val - (s.readV x).toNat)) = true

end Sys2Proof.Machine

namespace Sys2Proof

open Machine

/-! ### Which bytes, pixels and stack entries an instruction may write, within the parts above -/

/-- The addresses an instruction stores to: the three digits of Fx33 (R153), V0 to Vx of Fx55 (R154), and no other
instruction stores (R50). An address of 4096 or above is listed, but a store there is dropped. -/
def Instr.storeAddrs (s : State) : Instr → List Nat
  | .cls => []
  | .ret => []
  | .jp _ => []
  | .call _ => []
  | .seImm _ _ => []
  | .sneImm _ _ => []
  | .seReg _ _ => []
  | .ldImm _ _ => []
  | .addImm _ _ => []
  | .ldReg _ _ => []
  | .orReg _ _ => []
  | .andReg _ _ => []
  | .xorReg _ _ => []
  | .addReg _ _ => []
  | .subReg _ _ => []
  | .shr _ _ => []
  | .subn _ _ => []
  | .shl _ _ => []
  | .sneReg _ _ => []
  | .ldI _ => []
  | .jpV0 _ => []
  | .rnd _ _ => []
  | .drw _ _ _ => []
  | .skp _ => []
  | .sknp _ => []
  | .ldVxDT _ => []
  | .ldVxK _ => []
  | .ldDTVx _ => []
  | .ldSTVx _ => []
  | .addI _ => []
  | .ldF _ => []
  | .ldB _ => [s.ea s.i 0, s.ea s.i 1, s.ea s.i 2]
  | .stRegs x => (regsUpTo x).map (fun k => s.ea s.i k.val)
  | .ldRegs _ => []

/-- Dxyn flips no pixel but those its sprite covers (R171, R186). -/
def Instr.KeepsUncoveredPixels (i : Instr) (s t : State) : Prop :=
  ∀ x y n, i = .drw x y n → ∀ row col, ¬ s.SpriteCovers x y n row col → t.pixel row col = s.pixel row col

/-- Of the stack entries only 2nnn writes one, the entry STACK[SP]; a pop leaves its entry in place (R27, R100, R102). -/
def Instr.KeepsOtherEntries (i : Instr) (s t : State) : Prop :=
  ∀ k : Fin 16, (∀ nnn, i = .call nnn → k.val ≠ s.sp.val) → t.stack[k] = s.stack[k]

end Sys2Proof
end

