-- ==== Sys2Proof/Certificates/Slice0/Obligations.lean ====
section
/-! DEFINITION. The statements for the provers. Each docstring names the rules of spec/ it formalises. A statement about a
state is about every state and every setting of the parameters of R5, unless a hypothesis says otherwise. -/

open Sys2Proof Sys2Proof.Machine

/-! ### Encoding -/

/-- R73, R74, R76, R90: words written out from the encoding lines of the rules decode to the instructions they stand
for. That 7 selects SUBN and 8 selects nothing is PRESUMED (notes/assumptions/9.md; 92 D5, 93 K2), and the names of the
reasons are the model's (notes/assumptions/18.md). -/
def Obligations.SpecWordsDecode : Prop :=
  decode 0b0000000011100000#16 = .ok .cls ∧
  decode 0b0001001000000000#16 = .ok (.jp 0x200) ∧
  decode 0b0110101000000101#16 = .ok (.ldImm 10 0x05) ∧
  decode 0b1000000100100111#16 = .ok (.subn 1 2) ∧
  decode 0b1010001100000000#16 = .ok (.ldI 0x300) ∧
  decode 0b1101000000010010#16 = .ok (.drw 0 1 2) ∧
  decode 0b1110010110011110#16 = .ok (.skp 5) ∧
  decode 0b1111001001100101#16 = .ok (.ldRegs 2) ∧
  decode 0b1000000100101000#16 = .error .aluSelector ∧
  decode 0b0000000000000000#16 = .error .notClsOrRet

/-- R73, R74: no bit of an encoding is dropped. The selectors are those of notes/assumptions/9.md (PRESUMED). -/
def Obligations.DecodeOfEncodeIsTheInstruction : Prop :=
  ∀ i : Instr, i.wellFormed = true → decode (encode i) = .ok i

/-- R74, R75: an opcode that decodes has exactly one encoding, itself; so no two rows share an opcode, and what is
decoded is well-formed. That no bit is ignored rests on reading fixed digits strictly, the spec's own decision (92 D37,
notes/assumptions/17.md). -/
def Obligations.EncodeOfDecodeIsTheOpcode : Prop :=
  ∀ (op : Word) (i : Instr), decode op = .ok i → i.wellFormed = true ∧ encode i = op

/-- R90: the illegal opcodes are exactly those of its table. Fixed digits are read strictly and 8xyN has the selectors
of R76, the spec's own decisions (92 D37, notes/assumptions/17.md; 92 D5, notes/assumptions/9.md). -/
def Obligations.IllegalOpcodesAreExactlyTheTables : Prop :=
  ∀ op : Word, (∃ e, decode op = .error e) ↔
    (opA op = 0x0 ∧ op ≠ 0x00E0 ∧ op ≠ 0x00EE) ∨
    (opA op = 0x5 ∧ opN op ≠ 0x0) ∨
    (opA op = 0x8 ∧ opN op ∈ ([0x8, 0x9, 0xA, 0xB, 0xC, 0xD, 0xF] : List Nibble)) ∨
    (opA op = 0x9 ∧ opN op ≠ 0x0) ∨
    (opA op = 0xE ∧ opNN op ∉ ([0x9E, 0xA1] : List Byte)) ∨
    (opA op = 0xF ∧ opNN op ∉ ([0x07, 0x0A, 0x15, 0x18, 0x1E, 0x29, 0x33, 0x55, 0x65] : List Byte))

/-! ### The step -/

/-- R55, R82, R83, R211: a Running machine fetches the big-endian pair at PC and ea(PC, 1); with PC two further, it runs
the instruction the opcode decodes to, and where there is none it raises UnrecognizedOpcode with the opcode and the fetch
address. That PC keeps the fetch address + 2 after the halt is the spec's own decision (92 D17, notes/assumptions/15.md),
and the exception is taken as a next state (notes/assumptions/5.md, DEDUCED). -/
def Obligations.StepRunsTheDecodedInstruction : Prop :=
  ∀ (s : State) (op : Word), s.engine = .running →
    op = s.memRead s.pc.toNat ++ s.memRead (s.ea s.pc 1) →
    (∀ i, decode op = .ok i → step s = exec i (s.writePc (s.pc + 2))) ∧
    (∀ e, decode op = .error e → step s = .next ((s.writePc (s.pc + 2)).raiseUnrecognizedOpcode op s.pc))

/-- R211: an UnrecognizedOpcode records the opcode and its fetch address, leaves PC two further, writes nothing else,
and leaves the machine Halted. That PC keeps the fetch address + 2 is the spec's own decision (92 D17,
notes/assumptions/15.md). The exception is taken as a next state (notes/assumptions/5.md, DEDUCED). -/
def Obligations.UnrecognizedOpcodeHalts : Prop :=
  ∀ (s : State) (e : DecodeError), s.engine = .running → decode s.fetchOpcode = .error e →
    ∃ t, step s = .next t ∧ t.err = some ⟨s.fetchOpcode, s.pc⟩ ∧ t.engine = .halted ∧ t.pc = s.pc + 2 ∧
      Frame [] [.pc, .err] s t

/-- R84: a step of a Halted machine changes nothing. -/
def Obligations.HaltedStepChangesNothing : Prop :=
  ∀ s : State, s.engine = .halted → step s = .next s

/-- R216: of all host operations only RESET leaves the Halted state, and it leaves the machine Running; a STEP does nothing
there. -/
def Obligations.OnlyResetLeavesHalted : Prop :=
  ∀ (o : HostOp) (s t : State), s.engine = .halted → o.run s = .next t →
    (o = .reset ∧ t.engine = .running) ∨
    (o ≠ .reset ∧ t.engine = .halted ∧ t.err = s.err ∧ (o = .step → t = s))

/-- R81: with no key pressed a waiting step writes nothing at all; else it writes the least pressed key's index to
V[WAIT], ends the wait, and goes on as a Running machine's step in the same step. That any pressed key completes the
wait, even one already held, is the level reading of 90 C1 and the spec's own decision (92 D23, notes/assumptions/8.md).
-/
def Obligations.KeyWaitStep : Prop :=
  ∀ (s : State) (x : Reg), s.err = none → s.wait = some x →
    ((∀ k, s.readKey k = false) → step s = .next s) ∧
    (∀ k, s.readKey k = true → (∀ j, j < k → s.readKey j = false) →
      step s = step ((s.writeV x (BitVec.ofNat 8 k.val)).writeWait none))

/-- R213: no condition of a state makes a step fault or be refused; every step answers a next state. An illegal opcode
is a next state too, by R211: that no step faults or is refused is the model's reading (notes/assumptions/5.md,
DEDUCED). -/
def Obligations.EveryStepAnswersNext : Prop :=
  ∀ s : State, ∃ t, step s = .next t

/-- R225: every instruction completes in every state, whatever its operands. That there is one mode is the spec's own
decision (92 D21, notes/assumptions/23.md). -/
def Obligations.EveryInstructionCompletes : Prop :=
  ∀ (i : Instr) (s : State), ∃ t, exec i s = .next t

/-- R57: a fetch at 0x1000 or above, in a PC range R40 gives, reads opcode 0x0000 and halts; a fetch at 0xFFF takes its
low byte as 0. Unaligned and unmasked fetches are the spec's own decisions (92 D32, notes/assumptions/22.md; 92 D29,
notes/assumptions/14.md). -/
def Obligations.FetchOutsideMemoryHalts : Prop :=
  ∀ s : State, s.engine = .running →
    (0x1000 ≤ s.pc.toNat → s.pc.toNat ≤ 0x1100 → ∃ t, step s = .next t ∧ t.err = some ⟨0x0000, s.pc⟩) ∧
    (s.pc = 0xFFF → s.fetchOpcode = s.memRead 0xFFF ++ (0x00 : Byte))

/-- R51: the two settings of ADDR_SUM; they differ only past 0xFFFF, where the one wraps to the first 16 bytes and the
other is out of range. The parameter and its settings are the spec's own decision (92 D3, notes/assumptions/1.md). -/
def Obligations.AddressSum : Prop :=
  ∀ (s : State) (base : Word) (k : Nat),
    (s.cfg.addrSum = .wrap16 → s.ea base k = (base.toNat + k) % 2 ^ 16) ∧
    (s.cfg.addrSum = .unbounded → s.ea base k = base.toNat + k) ∧
    (∀ u : State, base.toNat + k ≤ 0xFFFF → u.ea base k = s.ea base k) ∧
    (s.cfg.addrSum = .wrap16 → k ≤ 16 → 0xFFFF < base.toNat + k → s.ea base k ≤ 0x000F) ∧
    (s.cfg.addrSum = .unbounded → 0xFFFF < base.toNat + k →
      s.memRead (s.ea base k) = 0 ∧ ∀ b, s.memWrite (s.ea base k) b = s)

/-- R51, R40: at I below 0xFFF1 and PC below 0xFFFF a step is the same under both settings of ADDR_SUM. The parameter is
the spec's own decision (92 D3), and that it stands in State.cfg, which the statement changes, is the model's
(notes/assumptions/1.md). -/
def Obligations.AddrSumIsInvisibleBelowTheWrap : Prop :=
  ∀ (s t : State) (m : AddrSum), s.i.toNat < 0xFFF1 → s.pc.toNat < 0xFFFF → step s = .next t →
    step { s with cfg := { s.cfg with addrSum := m } } = .next { t with cfg := { t.cfg with addrSum := m } }

/-! ### Control transfer -/

/-- R103, R104: skip on a register and an immediate. -/
def Obligations.SkipOnImmediate : Prop :=
  ∀ (x : Reg) (nn : Byte),
    decode (wordXNN 0x3 x nn) = .ok (.seImm x nn) ∧ decode (wordXNN 0x4 x nn) = .ok (.sneImm x nn) ∧
    ∀ s : State,
      (∃ t, exec (.seImm x nn) s = .next t ∧ t.pc = (if s.readV x = nn then s.pc + 2 else s.pc) ∧ Frame [] [.pc] s t) ∧
      (∃ t, exec (.sneImm x nn) s = .next t ∧ t.pc = (if s.readV x = nn then s.pc else s.pc + 2) ∧ Frame [] [.pc] s t)

/-- R105, R106: skip on two registers; a nonzero low nibble is illegal. That a nonzero nibble is illegal is the strict
reading, the spec's own decision (92 D37, notes/assumptions/17.md), and the names of the two reasons are the model's
(notes/assumptions/18.md). -/
def Obligations.SkipOnRegisters : Prop :=
  ∀ x y : Reg,
    decode (wordXYN 0x5 x y 0x0) = .ok (.seReg x y) ∧ decode (wordXYN 0x9 x y 0x0) = .ok (.sneReg x y) ∧
    (∀ n : Nibble, n ≠ 0 →
      decode (wordXYN 0x5 x y n) = .error .seRegNibble ∧ decode (wordXYN 0x9 x y n) = .error .sneRegNibble) ∧
    ∀ s : State,
      (∃ t, exec (.seReg x y) s = .next t ∧ t.pc = (if s.readV x = s.readV y then s.pc + 2 else s.pc) ∧
        Frame [] [.pc] s t) ∧
      (∃ t, exec (.sneReg x y) s = .next t ∧ t.pc = (if s.readV x = s.readV y then s.pc else s.pc + 2) ∧
        Frame [] [.pc] s t)

/-- R193, R194, R195: skip on a key. A value up to 15 names a key; above, KEY_OOR decides between no key and the low
nibble's; that parameter is the spec's own decision (92 D11, notes/assumptions/1.md). -/
def Obligations.SkipOnKey : Prop :=
  ∀ x : Reg,
    decode (wordXNN 0xE x 0x9E) = .ok (.skp x) ∧ decode (wordXNN 0xE x 0xA1) = .ok (.sknp x) ∧
    ∀ (s : State) (pressed : Bool),
      (∀ k : Reg, (s.readV x).toNat = k.val → pressed = s.readKey k) →
      (16 ≤ (s.readV x).toNat → s.cfg.keyOor = .notPressed → pressed = false) →
      (∀ k : Reg, 16 ≤ (s.readV x).toNat → s.cfg.keyOor = .maskLowNibble → (s.readV x).toNat % 16 = k.val →
        pressed = s.readKey k) →
      (∃ t, exec (.skp x) s = .next t ∧ t.pc = (if pressed = true then s.pc + 2 else s.pc) ∧ Frame [] [.pc] s t) ∧
      (∃ t, exec (.sknp x) s = .next t ∧ t.pc = (if pressed = true then s.pc else s.pc + 2) ∧ Frame [] [.pc] s t)

/-- R101, R107: the jumps are absolute. A step at a 1nnn jump to itself changes nothing. Bnnn may leave memory, and then
the next step halts with the target's address. That PC is kept unmasked is 90 C4 and the spec's own decision (92 D29,
notes/assumptions/14.md). -/
def Obligations.JumpsAreAbsolute : Prop :=
  ∀ nnn : Addr12,
    decode (wordNNN 0x1 nnn) = .ok (.jp nnn) ∧ decode (wordNNN 0xB nnn) = .ok (.jpV0 nnn) ∧
    ∀ s : State,
      (∃ t, exec (.jp nnn) s = .next t ∧ t.pc.toNat = nnn.toNat ∧ Frame [] [.pc] s t) ∧
      (s.engine = .running → s.fetchOpcode = wordNNN 0x1 nnn → s.pc.toNat = nnn.toNat → step s = .next s) ∧
      (∃ t, exec (.jpV0 nnn) s = .next t ∧ t.pc.toNat = nnn.toNat + (s.readV 0).toNat ∧ Frame [] [.pc] s t ∧
        (s.engine = .running → 0x1000 ≤ t.pc.toNat → ∃ u, step t = .next u ∧ u.err = some ⟨0x0000, t.pc⟩))

/-- R102: below 16 entries CALL pushes PC; at 16 the push alone is dropped, and a RET then takes the address in
STACK[15]; it jumps either way. That it jumps at 16 is the spec's own decision (92 D15, notes/assumptions/11.md). -/
def Obligations.CallPushesAndJumps : Prop :=
  ∀ nnn : Addr12,
    decode (wordNNN 0x2 nnn) = .ok (.call nnn) ∧
    ∀ s : State, ∃ t, exec (.call nnn) s = .next t ∧ t.pc.toNat = nnn.toNat ∧ Frame [] [.pc, .stack] s t ∧
      (s.sp.val < 16 → t.sp.val = s.sp.val + 1 ∧
        ∀ k : Fin 16, t.stack[k] = if k.val = s.sp.val then s.pc else s.stack[k]) ∧
      (s.sp.val = 16 → t.sp = s.sp ∧ t.stack = s.stack ∧ ∃ u, exec .ret t = .next u ∧ u.pc = s.stack[15])

/-- R100: RET takes PC from the top of the stack and leaves the entry in place; on an empty stack it writes nothing. The
empty stack is 90 C2 and the spec's own decision (92 D16), and so is the entry that stays (92 D30); both in
notes/assumptions/11.md. -/
def Obligations.ReturnPopsOrDoesNothing : Prop :=
  decode 0x00EE = .ok .ret ∧
  ∀ s : State, ∃ t, exec .ret s = .next t ∧ t.stack = s.stack ∧ Frame [] [.pc, .stack] s t ∧
    (∀ k : Fin 16, s.sp.val = k.val + 1 → t.sp.val = k.val ∧ t.pc = s.stack[k]) ∧
    (s.sp.val = 0 → t.pc = s.pc ∧ t.sp = s.sp)

/-- R100, R102: a CALL below 16 entries and a RET from wherever the callee is, with the stack as the CALL left it, come
back to the instruction after the CALL with the stack's size as before. -/
def Obligations.ReturnComesBackAfterTheCall : Prop :=
  ∀ (nnn : Addr12) (s t u v : State), s.sp.val < 16 → exec (.call nnn) s = .next t →
    Part.stack.Same t u → exec .ret u = .next v →
    v.pc = s.pc ∧ v.sp = s.sp ∧ ∀ k : Fin 16, k.val < s.sp.val → v.stack[k] = s.stack[k]

/-! ### Arithmetic and logic -/

/-- R122, R123: load and add an immediate; the sum is reduced modulo 256 and no flag is written. -/
def Obligations.LoadAndAddImmediate : Prop :=
  ∀ (x : Reg) (nn : Byte),
    decode (wordXNN 0x6 x nn) = .ok (.ldImm x nn) ∧ decode (wordXNN 0x7 x nn) = .ok (.addImm x nn) ∧
    ∀ s : State,
      (∃ t, exec (.ldImm x nn) s = .next t ∧ t.readV x = nn ∧ Frame [x] [] s t) ∧
      (∃ t, exec (.addImm x nn) s = .next t ∧ (t.readV x).toNat = ((s.readV x).toNat + nn.toNat) % 256 ∧
        Frame [x] [] s t)

/-- R124 to R127: assign, OR, AND, XOR, bit by bit; VF is not written unless it is Vx, the spec's own decision (92 D8,
notes/assumptions/12.md). -/
def Obligations.AssignAndBitwise : Prop :=
  ∀ x y : Reg,
    decode (wordXYN 0x8 x y 0x0) = .ok (.ldReg x y) ∧ decode (wordXYN 0x8 x y 0x1) = .ok (.orReg x y) ∧
    decode (wordXYN 0x8 x y 0x2) = .ok (.andReg x y) ∧ decode (wordXYN 0x8 x y 0x3) = .ok (.xorReg x y) ∧
    ∀ s : State,
      (∃ t, exec (.ldReg x y) s = .next t ∧ t.readV x = s.readV y ∧ Frame [x] [] s t) ∧
      (∃ t, exec (.orReg x y) s = .next t ∧
        (∀ b, (t.readV x).getLsbD b = ((s.readV x).getLsbD b || (s.readV y).getLsbD b)) ∧ Frame [x] [] s t) ∧
      (∃ t, exec (.andReg x y) s = .next t ∧
        (∀ b, (t.readV x).getLsbD b = ((s.readV x).getLsbD b && (s.readV y).getLsbD b)) ∧ Frame [x] [] s t) ∧
      (∃ t, exec (.xorReg x y) s = .next t ∧
        (∀ b, (t.readV x).getLsbD b = ((s.readV x).getLsbD b ^^ (s.readV y).getLsbD b)) ∧ Frame [x] [] s t)

/-- R128, R121: the sum modulo 256, and VF the carry, written last. The order, seen at x = F, is the spec's own decision
(92 D7, notes/assumptions/12.md). -/
def Obligations.AddWritesCarry : Prop :=
  ∀ x y : Reg,
    decode (wordXYN 0x8 x y 0x4) = .ok (.addReg x y) ∧
    ∀ s : State, ∃ t, exec (.addReg x y) s = .next t ∧
      t.readV vf = (if 255 < (s.readV x).toNat + (s.readV y).toNat then 1 else 0) ∧
      (x ≠ vf → (t.readV x).toNat = ((s.readV x).toNat + (s.readV y).toNat) % 256) ∧ Frame [x, vf] [] s t

/-- R129, R131, R121: the difference modulo 256, and VF the NOT of the borrow, written last. The order and the flag of
8xy7 are the spec's own decisions (92 D7, D9, notes/assumptions/12.md). That selector 7 is 8xy7 is PRESUMED
(notes/assumptions/9.md; 92 D5, 93 K2). -/
def Obligations.SubtractionsWriteNotBorrow : Prop :=
  ∀ x y : Reg,
    decode (wordXYN 0x8 x y 0x5) = .ok (.subReg x y) ∧ decode (wordXYN 0x8 x y 0x7) = .ok (.subn x y) ∧
    ∀ (s : State) (a b : Nat), a = (s.readV x).toNat → b = (s.readV y).toNat →
      (∃ t, exec (.subReg x y) s = .next t ∧ t.readV vf = (if b ≤ a then 1 else 0) ∧
        (x ≠ vf → (t.readV x).toNat = if b ≤ a then a - b else a + 256 - b) ∧ Frame [x, vf] [] s t) ∧
      (∃ t, exec (.subn x y) s = .next t ∧ t.readV vf = (if a ≤ b then 1 else 0) ∧
        (x ≠ vf → (t.readV x).toNat = if a ≤ b then b - a else b + 256 - a) ∧ Frame [x, vf] [] s t)

/-- R130, R132, R121: the shifts by one of the register SHIFT_SRC names, and VF the bit shifted out, written last. The
parameter and the order are the spec's own decisions (92 D6, notes/assumptions/1.md; 92 D7, notes/assumptions/12.md).
That selectors 6 and E are the shifts is PRESUMED (notes/assumptions/9.md; 92 D5, 93 K2). -/
def Obligations.ShiftsWriteTheBitShiftedOut : Prop :=
  ∀ x y : Reg,
    decode (wordXYN 0x8 x y 0x6) = .ok (.shr x y) ∧ decode (wordXYN 0x8 x y 0xE) = .ok (.shl x y) ∧
    ∀ (s : State) (a : Nat),
      (s.cfg.shiftSrc = .vx → a = (s.readV x).toNat) → (s.cfg.shiftSrc = .vy → a = (s.readV y).toNat) →
      (∃ t, exec (.shr x y) s = .next t ∧ (t.readV vf).toNat = a % 2 ∧
        (x ≠ vf → (t.readV x).toNat = a / 2) ∧ Frame [x, vf] [] s t) ∧
      (∃ t, exec (.shl x y) s = .next t ∧ (t.readV vf).toNat = a / 128 ∧
        (x ≠ vf → (t.readV x).toNat = a * 2 % 256) ∧ Frame [x, vf] [] s t)

/-- R133: Vx becomes the mask AND the drawn byte, whatever byte that is; so it has no bit outside the mask, and one draw is
used up. The byte is the free value of notes/assumptions/2.md (92 D20). -/
def Obligations.RandomIsMasked : Prop :=
  ∀ (x : Reg) (nn : Byte),
    decode (wordXNN 0xC x nn) = .ok (.rnd x nn) ∧
    ∀ s : State, ∃ t, exec (.rnd x nn) s = .next t ∧ t.readV x = nn &&& Config.rand s.draws ∧
      (∀ b, nn.getLsbD b = false → (t.readV x).getLsbD b = false) ∧ t.draws = s.draws + 1 ∧ Frame [x] [.draws] s t

/-- R85: a step takes a draw exactly when the instruction it runs is Cxnn, and then one; every other step does the same
whichever draw is next (92 D20, notes/assumptions/2.md). -/
def Obligations.OnlyRandomTakesADraw : Prop :=
  ∀ s t : State, step s = .next t →
    ((∃ u x nn, s.beginStep = some u ∧ decode u.fetchOpcode = .ok (.rnd x nn)) ∧ t.draws = s.draws + 1) ∨
    ((¬ ∃ u x nn, s.beginStep = some u ∧ decode u.fetchOpcode = .ok (.rnd x nn)) ∧ t.draws = s.draws ∧
      ∀ d, step { s with draws := d } = .next { t with draws := d })

/-! ### The address register and memory -/

/-- R150, R151, R152: what I becomes. Fx1E does not mask it to 12 bits, and an access through 0x1000 or above is out of
range: 90 C3 and the spec's own decision (92 D29, notes/assumptions/14.md). -/
def Obligations.AddressRegister : Prop :=
  ∀ (x : Reg) (nnn : Addr12),
    decode (wordNNN 0xA nnn) = .ok (.ldI nnn) ∧ decode (wordXNN 0xF x 0x1E) = .ok (.addI x) ∧
    decode (wordXNN 0xF x 0x29) = .ok (.ldF x) ∧
    ∀ s : State,
      (∃ t, exec (.ldI nnn) s = .next t ∧ t.i.toNat = nnn.toNat ∧ Frame [] [.i] s t) ∧
      (∃ t, exec (.addI x) s = .next t ∧ t.i.toNat = (s.i.toNat + (s.readV x).toNat) % 65536 ∧
        (0x1000 ≤ t.i.toNat → t.memRead t.i.toNat = 0) ∧ Frame [] [.i] s t) ∧
      (∃ t, exec (.ldF x) s = .next t ∧ t.i.toNat = (s.readV x).toNat % 16 * 5 ∧ Frame [] [.i] s t)

/-- R153: the three decimal digits at ea(I, 0), ea(I, 1), ea(I, 2), each dropped where memory ends; no other byte
changes. I is kept, the spec's own decision (R156, 92 D10, notes/assumptions/14.md). -/
def Obligations.BcdStoresThreeDigits : Prop :=
  ∀ x : Reg,
    decode (wordXNN 0xF x 0x33) = .ok (.ldB x) ∧
    ∀ s : State, ∃ t, exec (.ldB x) s = .next t ∧
      (s.ea s.i 0 < 4096 → (t.memRead (s.ea s.i 0)).toNat = (s.readV x).toNat / 100) ∧
      (s.ea s.i 1 < 4096 → (t.memRead (s.ea s.i 1)).toNat = (s.readV x).toNat / 10 % 10) ∧
      (s.ea s.i 2 < 4096 → (t.memRead (s.ea s.i 2)).toNat = (s.readV x).toNat % 10) ∧
      (∀ a, a ≠ s.ea s.i 0 → a ≠ s.ea s.i 1 → a ≠ s.ea s.i 2 → t.memRead a = s.memRead a) ∧
      (∀ a, 4096 ≤ a → t.memRead a = 0) ∧ Frame [] [.mem] s t

/-- R154: V0 to Vx at ea(I, 0) to ea(I, x), each dropped where memory ends; no other byte changes. I is kept, the spec's
own decision (R156, 92 D10, notes/assumptions/14.md). -/
def Obligations.StoreRegisters : Prop :=
  ∀ x : Reg,
    decode (wordXNN 0xF x 0x55) = .ok (.stRegs x) ∧
    ∀ s : State, ∃ t, exec (.stRegs x) s = .next t ∧
      (∀ k : Reg, k ≤ x → s.ea s.i k.val < 4096 → t.memRead (s.ea s.i k.val) = s.readV k) ∧
      (∀ a, (∀ k : Reg, k ≤ x → a ≠ s.ea s.i k.val) → t.memRead a = s.memRead a) ∧
      (∀ a, 4096 ≤ a → t.memRead a = 0) ∧ Frame [] [.mem] s t

/-- R155: V0 to Vx from ea(I, 0) to ea(I, x), 0 where memory ends. I is kept, the spec's own decision (R156, 92 D10,
notes/assumptions/14.md). -/
def Obligations.LoadRegisters : Prop :=
  ∀ x : Reg,
    decode (wordXNN 0xF x 0x65) = .ok (.ldRegs x) ∧
    ∀ s : State, ∃ t, exec (.ldRegs x) s = .next t ∧
      (∀ k : Reg, k ≤ x → t.readV k = s.memRead (s.ea s.i k.val)) ∧
      (∀ k : Reg, k ≤ x → 4096 ≤ s.ea s.i k.val → t.readV k = 0) ∧ Frame (regsUpTo x) [] s t

/-- R154, R155, R61: what Fx55 stored inside memory, a later Fx65 at the same I loads back, whatever the registers hold by
then. -/
def Obligations.LoadGivesBackWhatStoreSaved : Prop :=
  ∀ (x : Reg) (s t u w : State), s.i.toNat + x.val < 4096 → exec (.stRegs x) s = .next t →
    Part.mem.Same t u → u.i = s.i → exec (.ldRegs x) u = .next w →
    ∀ k : Reg, k ≤ x → w.readV k = s.readV k

/-- R64: bytes that Fx55 stored are what a later fetch of their addresses reads, with nothing in between. The coherence
is the spec's own decision (92 D33, notes/assumptions/22.md). -/
def Obligations.FetchSeesStoredBytes : Prop :=
  ∀ (x j k : Reg) (s t : State), k.val = j.val + 1 → k ≤ x → s.i.toNat + k.val < 4096 → exec (.stRegs x) s = .next t →
    (t.writePc (s.i + BitVec.ofNat 16 j.val)).fetchOpcode = s.readV j ++ s.readV k

/-! ### Display -/

/-- R170: every pixel is off; CHANGED is set when one was lit and else kept; VF is not written. -/
def Obligations.ClearScreen : Prop :=
  decode 0x00E0 = .ok .cls ∧
  ∀ s : State, ∃ t, exec .cls s = .next t ∧ (∀ row col, t.pixel row col = false) ∧
    (t.changed = true ↔ s.changed = true ∨ ∃ row col, s.pixel row col = true) ∧ Frame [] [.disp, .changed] s t

/-- R171: the blit flips exactly the pixels the sprite covers (R180 to R182); VF is 1 when one of them was lit and else
0; CHANGED is set when one is covered and else kept. The bit order, exact coordinates and the case n = 0 are the spec's
own decisions (92 D13, PRESUMED, notes/assumptions/10.md; 92 D14, D12, notes/assumptions/13.md). -/
def Obligations.DrawFlipsTheCoveredPixels : Prop :=
  ∀ (x y : Reg) (n : Nibble),
    decode (wordXYN 0xD x y n) = .ok (.drw x y n.toNat) ∧
    ∀ s : State, ∃ t, exec (.drw x y n.toNat) s = .next t ∧
      (∀ row col, (t.pixel row col ≠ s.pixel row col) ↔ s.SpriteCovers x y n.toNat row col) ∧
      ((∃ row col, s.SpriteCovers x y n.toNat row col ∧ s.pixel row col = true) → t.readV vf = 1) ∧
      ((¬ ∃ row col, s.SpriteCovers x y n.toNat row col ∧ s.pixel row col = true) → t.readV vf = 0) ∧
      (t.changed = true ↔ s.changed = true ∨ ∃ row col, s.SpriteCovers x y n.toNat row col) ∧
      Frame [vf] [.disp, .changed] s t

/-- R186: drawing the same sprite twice at the same origin, with the same memory and I, restores the display. Where the
origin is in VF the first draw changes it, so VF holds none of the coordinates. Coordinates are exact, the spec's own
decision (92 D14, notes/assumptions/13.md). -/
def Obligations.DrawingTwiceRestoresTheDisplay : Prop :=
  ∀ (x y : Reg) (n : Nat) (s t u : State), x ≠ vf → y ≠ vf → exec (.drw x y n) s = .next t →
    exec (.drw x y n) t = .next u → u.disp = s.disp

/-- R33: CHANGED is set by any operation that flips a pixel, but for RESET; and only CONSUME_CHANGED and RESET clear it. -/
def Obligations.ChangedIsSetOnFlipsAndNeverClearedByTheEngine : Prop :=
  ∀ (o : HostOp) (s t : State), o.run s = .next t → o ≠ .reset →
    ((∃ row col, t.pixel row col ≠ s.pixel row col) → t.changed = true) ∧
    (o ≠ .consumeChanged → s.changed = true → t.changed = true)

/-- R183: 2048 bits in row-major order, and reading has no side effect. -/
def Obligations.ReadDisplayIsRowMajor : Prop :=
  ∀ s : State, HostOp.readDisplay.run s = .next s ∧
    ∃ bits, HostOp.readDisplay.answer s = .pixels bits ∧ bits.length = 2048 ∧
      ∀ (row : Fin 32) (col : Fin 64), bits[row.val * 64 + col.val]? = some (s.pixel row col)

/-- R184: READ_CHANGED gives CHANGED and writes nothing; CONSUME_CHANGED gives the value before it clears it, and writes
nothing else; and nothing but CONSUME_CHANGED, RESET, 00E0 and Dxyn changes CHANGED. The two operations are the spec's
own split (92 D25, notes/assumptions/20.md). -/
def Obligations.ConsumeChangedReadsAndClears : Prop :=
  (∀ s : State,
    (HostOp.readChanged.run s = .next s ∧ HostOp.readChanged.answer s = .bit s.changed) ∧
    ∃ t, HostOp.consumeChanged.run s = .next t ∧ HostOp.consumeChanged.answer s = .bit s.changed ∧
      t.changed = false ∧ Frame [] [.changed] s t) ∧
  (∀ (o : HostOp) (s t : State), o.run s = .next t → t.changed ≠ s.changed →
    o = .consumeChanged ∨ o = .reset ∨
    (o = .step ∧ ∃ u i, s.beginStep = some u ∧ decode u.fetchOpcode = .ok i ∧ (i = .cls ∨ ∃ x y n, i = .drw x y n)))

/-- R21, R212: READ_ERROR gives ERR and READ_STATE the whole state, and neither writes anything.
READ_STATE is the spec's own (92 D2), and here it gives the model's two fields too (notes/assumptions/7.md). -/
def Obligations.ReadErrorAndReadState : Prop :=
  ∀ s : State,
    HostOp.readError.run s = .next s ∧ HostOp.readState.run s = .next s ∧ HostOp.readState.answer s = .state s ∧
    (s.err = none → HostOp.readError.answer s = .error none) ∧
    (∀ op a, s.err = some ⟨op, a⟩ → HostOp.readError.answer s = .error (some ⟨op, a⟩))

/-! ### Timers and keypad -/

/-- R190, R191, R192, R200: the timer instructions. SOUND is on exactly while ST is not 0, so a nonzero Fx18 sounds at once
and a zero one silences. -/
def Obligations.TimerInstructions : Prop :=
  ∀ x : Reg,
    decode (wordXNN 0xF x 0x07) = .ok (.ldVxDT x) ∧ decode (wordXNN 0xF x 0x15) = .ok (.ldDTVx x) ∧
    decode (wordXNN 0xF x 0x18) = .ok (.ldSTVx x) ∧
    ∀ s : State,
      (∃ t, exec (.ldVxDT x) s = .next t ∧ t.readV x = s.dt ∧ Frame [x] [] s t) ∧
      (∃ t, exec (.ldDTVx x) s = .next t ∧ t.dt = s.readV x ∧ Frame [] [.dt] s t) ∧
      (∃ t, exec (.ldSTVx x) s = .next t ∧ t.st = s.readV x ∧ Frame [] [.st] s t ∧
        HostOp.sound.answer t = .bit (decide (s.readV x ≠ 0))) ∧
      (HostOp.sound.run s = .next s ∧ HostOp.sound.answer s = .bit (decide (s.st ≠ 0)))

/-- R197: Fx0A sets WAIT and ends its step; while no key is pressed later steps change nothing; with a key pressed, even
one already held, the next step writes the least pressed index to V[x], ends the wait and goes on to fetch. Level, not
edge: 90 C1 and the spec's own decision (92 D23, notes/assumptions/8.md). -/
def Obligations.WaitForKey : Prop :=
  ∀ x : Reg,
    decode (wordXNN 0xF x 0x0A) = .ok (.ldVxK x) ∧
    ∀ s : State, ∃ t, exec (.ldVxK x) s = .next t ∧ t.wait = some x ∧ Frame [] [.wait] s t ∧
      (s.err = none → t.engine = .waitingForKey ∧
        ((∀ k, s.readKey k = false) → step t = .next t) ∧
        (∀ k, s.readKey k = true → (∀ j, j < k → s.readKey j = false) →
          step t = step ((t.writeV x (BitVec.ofNat 8 k.val)).writeWait none)))

/-- R199: TICK takes one from each timer that is not 0, in every engine state (the spec's own decision, 92 D17,
notes/assumptions/15.md), and writes nothing else. -/
def Obligations.TickCountsDown : Prop :=
  ∀ s : State, ∃ t, HostOp.tick.run s = .next t ∧ t.dt.toNat = s.dt.toNat - 1 ∧ t.st.toNat = s.st.toNat - 1 ∧
    Frame [] [.dt, .st] s t

/-- R201, R28: DT changes only by TICK, by Fx15 and by RESET, ST only by TICK, by Fx18 and by RESET; no other step and no
other operation counts or writes them. -/
def Obligations.TimersChangeOnlyByTickAndTheirInstructions : Prop :=
  ∀ (o : HostOp) (s t : State), o.run s = .next t →
    (t.dt ≠ s.dt → o = .tick ∨ o = .reset ∨
      (o = .step ∧ ∃ u x, s.beginStep = some u ∧ decode u.fetchOpcode = .ok (.ldDTVx x))) ∧
    (t.st ≠ s.st → o = .tick ∨ o = .reset ∨
      (o = .step ∧ ∃ u x, s.beginStep = some u ∧ decode u.fetchOpcode = .ok (.ldSTVx x)))

/-- R204: SET_KEY writes one key, and an index outside 0 to 15 does nothing. -/
def Obligations.SetKeyWritesOneKey : Prop :=
  ∀ (s : State) (p : Bool),
    (∀ k : Reg, ∃ t, (HostOp.setKey (k.val : Int) p).run s = .next t ∧
      (∀ j, t.readKey j = if j = k then p else s.readKey j) ∧ Frame [] [.key] s t) ∧
    (∀ index : Int, index < 0 ∨ 15 < index → (HostOp.setKey index p).run s = .next s)

/-- R205, R29: a key keeps its value under every host operation but RESET and a SET_KEY of its own index. -/
def Obligations.KeysAreLatched : Prop :=
  ∀ (o : HostOp) (s t : State) (k : Reg), o.run s = .next t → o ≠ .reset → (∀ p, o ≠ .setKey (k.val : Int) p) →
    t.readKey k = s.readKey k

/-! ### Reset and load -/

/-- R39: every element after RESET, from any state. Memory past the font, KEY and CHANGED are the spec's own decision
(92 D18, notes/assumptions/16.md); FONT is whatever the parameter says. -/
def Obligations.ResetValues : Prop :=
  ∀ s : State, ∃ t, HostOp.reset.run s = .next t ∧
    (∀ r, t.readV r = 0) ∧ t.i = 0 ∧ t.pc = 0x200 ∧ (∀ k : Fin 16, t.stack[k] = 0) ∧ t.sp = 0 ∧ t.dt = 0 ∧ t.st = 0 ∧
    (∀ k, t.readKey k = false) ∧ t.wait = none ∧
    (∀ (a : Nat) (h : a < 80), t.memRead a = t.cfg.font[a]) ∧ (∀ a, 80 ≤ a → t.memRead a = 0) ∧
    (∀ row col, t.pixel row col = false) ∧ t.changed = false ∧ t.err = none ∧ t.engine = .running ∧
    t.cfg = s.cfg ∧ t.draws = s.draws

/-- R243: LOAD writes the bytes from 0x200 up, those at 0x1000 and above are dropped, and nothing else changes, in every
engine state. The truncation and the any-state rule are the spec's own decision (92 D19, notes/assumptions/16.md). -/
def Obligations.LoadWritesFromTheLoadOffset : Prop :=
  ∀ (bytes : List Byte) (s : State), ∃ t, (HostOp.load bytes).run s = .next t ∧
    (∀ (k : Nat) (h : k < bytes.length), 0x200 + k < 4096 → t.memRead (0x200 + k) = bytes[k]) ∧
    (∀ a, a < 0x200 ∨ 0x200 + bytes.length ≤ a → t.memRead a = s.memRead a) ∧
    (∀ a, 4096 ≤ a → t.memRead a = 0) ∧ Frame [] [.mem] s t

/-- R242: after RESET and LOAD the machine is Running, and its first step fetches the program's first two bytes. -/
def Obligations.FirstFetchAfterLoad : Prop :=
  ∀ (s : State) (b0 b1 : Byte) (rest : List Byte), ∃ t,
    runOps [.reset, .load (b0 :: b1 :: rest)] s = .next t ∧ t.engine = .running ∧ t.pc = 0x200 ∧
      t.fetchOpcode = b0 ++ b1

/-- notes/assumptions/6.md: an instruction placed by withFetchWord is the one the very next step runs. -/
def Obligations.PlacedInstructionRunsNext : Prop :=
  ∀ (s : State) (i : Instr), i.wellFormed = true →
    step (s.withFetchWord 16 (encode i).toNat) = exec i (s.withFetchWord 16 (encode i).toNat).advancePc

/-! ### Invariants and whole-machine rules -/

/-- The invariant holds after reset, for every setting of the parameters. The canonical form of memory is the model's
(notes/assumptions/4.md). -/
def Obligations.ResetMeetsTheInvariant : Prop :=
  ∀ (cfg : Config) (draws : Nat), Inv (State.resetWith cfg draws)

/-- R37, R40 and the canonical form of memory: every step keeps the invariant, from every state that meets it. The
canonical form is the model's (notes/assumptions/4.md). -/
def Obligations.StepKeepsTheInvariant : Prop :=
  ∀ s t : State, Inv s → step s = .next t → Inv t

/-- Every host operation keeps the invariant. Of its clauses the canonical form of memory is the model's
(notes/assumptions/4.md); the others are R37 and R40. -/
def Obligations.HostOperationsKeepTheInvariant : Prop :=
  ∀ (o : HostOp) (s t : State), Inv s → o.run s = .next t → Inv t

/-- R40: in every state reached from RESET by host operations PC is at most 0x1100 and every stack entry at most 0x1001; so
neither the increment of PC nor ea(PC, 1) wraps. -/
def Obligations.ReachablePcAndStackRange : Prop :=
  ∀ s : State, Reachable s →
    s.pc.toNat ≤ 0x1100 ∧ (∀ k : Fin 16, (s.stack[k]).toNat ≤ 0x1001) ∧
    s.advancePc.pc.toNat = s.pc.toNat + 2 ∧ s.ea s.pc 1 = s.pc.toNat + 1

/-- R37: ERR and WAIT never hold together, in any reachable state; every host operation keeps it so from any state. -/
def Obligations.NeverHaltedAndWaiting : Prop :=
  (∀ s : State, Reachable s → ¬ (s.err ≠ none ∧ s.wait ≠ none)) ∧
  (∀ (o : HostOp) (s t : State), ¬ (s.err ≠ none ∧ s.wait ≠ none) → o.run s = .next t →
    ¬ (t.err ≠ none ∧ t.wait ≠ none))

/-- R23 to R35, R50, R85: every instruction leaves everything but what its rule writes: V by the table of R24; the stack
only by 2nnn and 00EE, and of its entries only STACK[SP] by 2nnn; I only by Annn, Fx1E and Fx29; memory only by Fx33 at
ea(I, 0) to ea(I, 2) and by Fx55 at ea(I, 0) to ea(I, x); the display only by 00E0 and by Dxyn at the pixels its sprite
covers; keys and ERR by none. That logic instructions keep VF and transfers keep I are the spec's own decisions (92 D8,
notes/assumptions/12.md; 92 D10, notes/assumptions/14.md); a popped entry stays (92 D30, notes/assumptions/11.md), and
which pixels are covered rests on notes/assumptions/10.md and 13.md. -/
def Obligations.InstructionsWriteOnlyWhatTheirRulesName : Prop :=
  ∀ (i : Instr) (s t : State), exec i s = .next t →
    Frame i.regWrites i.partWrites s t ∧ (∀ a, a ∉ i.storeAddrs s → t.memRead a = s.memRead a) ∧
    i.KeepsUncoveredPixels s t ∧ i.KeepsOtherEntries s t

/-- R24: what an instruction does depends on no general register but those the table says it reads: from two states that
differ in other registers alone, it leaves the rest of the state the same, and writes the same to the registers it writes. -/
def Obligations.InstructionsReadOnlyTheirRegisters : Prop :=
  ∀ (i : Instr) (s t s' : State) (v' : Vector Byte 16), s' = { s with v := v' } →
    (∀ r, r ∈ i.regReads s.cfg.shiftSrc → s'.readV r = s.readV r) → exec i s = .next t →
    ∃ t', exec i s' = .next t' ∧ t' = { t with v := t'.v } ∧ ∀ r, r ∈ i.regWrites → t'.readV r = t.readV r

/-- The canonical form of memory is canonical: two memories in it that read alike are the same list. The form is the
model's (notes/assumptions/4.md). -/
def Obligations.CanonicalMemoriesThatReadAlikeAreEqual : Prop :=
  ∀ (font : Vector Byte 80) (m m' : List Host.Cell), Memory.wf font m = true → Memory.wf font m' = true →
    (∀ a, Memory.read font m a = Memory.read font m' a) → m = m'
end

