-- ==== Sys2Proof/Laws/Decode.lean ====
section
/-! SUPPORT. What the fields of R71 are in a word of each format of R73, and that an opcode is made of its fields. -/

namespace Sys2Proof

/-- Concatenation puts the first value above the second: exact arithmetic instead of bits. -/
theorem toNat_concat {m n : Nat} (a : BitVec m) (b : BitVec n) : (a ++ b).toNat = a.toNat * 2 ^ n + b.toNat := by
  rw [BitVec.toNat_append, ← Nat.shiftLeft_add_eq_or_of_lt b.isLt, Nat.shiftLeft_eq]

/-- A field is a quotient and a remainder. -/
theorem toNat_field {m : Nat} (lo len : Nat) (w : BitVec m) : (w.extractLsb' lo len).toNat = w.toNat / 2 ^ lo % 2 ^ len := by
  rw [BitVec.extractLsb'_toNat, Nat.shiftRight_eq_div_pow]

@[simp] theorem regOf_regBits (r : Reg) : regOf (regBits r) = r := rfl

@[simp] theorem regBits_regOf (b : Nibble) : regBits (regOf b) = b := rfl

/-! ### The value of a word of each format -/

theorem wordNNN_toNat (a : Nibble) (nnn : Addr12) : (wordNNN a nnn).toNat = a.toNat * 4096 + nnn.toNat :=
  toNat_concat a nnn

theorem wordXNN_toNat (a : Nibble) (x : Reg) (nn : Byte) :
    (wordXNN a x nn).toNat = a.toNat * 4096 + (regBits x).toNat * 256 + nn.toNat := by
  have h := toNat_concat (a ++ regBits x) nn
  have h' := toNat_concat a (regBits x)
  exact h.trans (by omega)

theorem wordXYN_toNat (a : Nibble) (x y : Reg) (n : Nibble) :
    (wordXYN a x y n).toNat = a.toNat * 4096 + (regBits x).toNat * 256 + (regBits y).toNat * 16 + n.toNat := by
  have h := toNat_concat (a ++ regBits x ++ regBits y) n
  have h' := toNat_concat (a ++ regBits x) (regBits y)
  have h'' := toNat_concat a (regBits x)
  exact h.trans (by omega)

/-! ### Fields of each format -/

@[simp] theorem opA_wordNNN (a : Nibble) (nnn : Addr12) : opA (wordNNN a nnn) = a := by
  apply BitVec.eq_of_toNat_eq; rw [opA, toNat_field, wordNNN_toNat]; omega
@[simp] theorem opNNN_wordNNN (a : Nibble) (nnn : Addr12) : opNNN (wordNNN a nnn) = nnn := by
  apply BitVec.eq_of_toNat_eq; rw [opNNN, toNat_field, wordNNN_toNat]; omega

@[simp] theorem opA_wordXNN (a : Nibble) (x : Reg) (nn : Byte) : opA (wordXNN a x nn) = a := by
  apply BitVec.eq_of_toNat_eq; rw [opA, toNat_field, wordXNN_toNat]; omega
@[simp] theorem opX_wordXNN (a : Nibble) (x : Reg) (nn : Byte) : opX (wordXNN a x nn) = regBits x := by
  apply BitVec.eq_of_toNat_eq; rw [opX, toNat_field, wordXNN_toNat]; omega
@[simp] theorem opNN_wordXNN (a : Nibble) (x : Reg) (nn : Byte) : opNN (wordXNN a x nn) = nn := by
  apply BitVec.eq_of_toNat_eq; rw [opNN, toNat_field, wordXNN_toNat]; omega

@[simp] theorem opA_wordXYN (a : Nibble) (x y : Reg) (n : Nibble) : opA (wordXYN a x y n) = a := by
  apply BitVec.eq_of_toNat_eq; rw [opA, toNat_field, wordXYN_toNat]; omega
@[simp] theorem opX_wordXYN (a : Nibble) (x y : Reg) (n : Nibble) : opX (wordXYN a x y n) = regBits x := by
  apply BitVec.eq_of_toNat_eq; rw [opX, toNat_field, wordXYN_toNat]; omega
@[simp] theorem opY_wordXYN (a : Nibble) (x y : Reg) (n : Nibble) : opY (wordXYN a x y n) = regBits y := by
  apply BitVec.eq_of_toNat_eq; rw [opY, toNat_field, wordXYN_toNat]; omega
@[simp] theorem opN_wordXYN (a : Nibble) (x y : Reg) (n : Nibble) : opN (wordXYN a x y n) = n := by
  apply BitVec.eq_of_toNat_eq; rw [opN, toNat_field, wordXYN_toNat]; omega

/-! ### An opcode is made of its fields -/

theorem wordNNN_fields (op : Word) : wordNNN (opA op) (opNNN op) = op := by
  apply BitVec.eq_of_toNat_eq; rw [wordNNN_toNat, opA, opNNN, toNat_field, toNat_field]; omega

theorem wordXNN_fields (op : Word) : wordXNN (opA op) (regOf (opX op)) (opNN op) = op := by
  apply BitVec.eq_of_toNat_eq
  rw [wordXNN_toNat, regBits_regOf, opA, opX, opNN, toNat_field, toNat_field, toNat_field]; omega

theorem wordXYN_fields (op : Word) : wordXYN (opA op) (regOf (opX op)) (regOf (opY op)) (opN op) = op := by
  apply BitVec.eq_of_toNat_eq
  rw [wordXYN_toNat, regBits_regOf, regBits_regOf, opA, opX, opY, opN, toNat_field, toNat_field, toNat_field,
    toNat_field]; omega

@[simp] theorem opcodeOfBytes_halves (op : Word) : opcodeOfBytes (opcodeHi op) (opcodeLo op) = op := by
  apply BitVec.eq_of_toNat_eq
  have h := toNat_concat (opcodeHi op) (opcodeLo op)
  rw [opcodeHi, opcodeLo, toNat_field, toNat_field] at h
  exact h.trans (by omega)

end Sys2Proof
end

