-- ==== Sys2Proof/Laws/Memory.lean ====
section
/-! SUPPORT. The laws of the memory image: read after write, and that every operation keeps the canonical form. -/

namespace Sys2Proof.Machine

variable (font : Vector Byte 80)

theorem Memory.read_erase (a b : Nat) (m : List Host.Cell) :
    Memory.read font (Memory.erase a m) b = if b = a then Memory.unlisted font b else Memory.read font m b := by
  induction m with
  | nil => simp [Memory.erase, Memory.read]
  | cons c m ih =>
    by_cases hc : c.1 = a
    · simp only [Memory.erase, hc, if_true, ih, Memory.read]
      by_cases hb : b = a
      · simp [hb]
      · simp [hb, Ne.symm hb]
    · simp only [Memory.erase, hc, if_false, ih, Memory.read]
      by_cases hb : b = a
      · subst hb; simp [hc]
      · simp [hb]

/-- An address that no cell of the memory lists. -/
def Memory.Absent (a : Nat) (m : List Host.Cell) : Prop := ∀ c ∈ m, c.1 ≠ a

theorem Memory.erase_absent (a : Nat) (m : List Host.Cell) : Memory.Absent a (Memory.erase a m) := by
  induction m with
  | nil => intro c hc; cases hc
  | cons d m ih =>
    by_cases hd : d.1 = a
    · simpa [Memory.erase, hd] using ih
    · intro c hc
      simp only [Memory.erase, hd, if_false, List.mem_cons] at hc
      rcases hc with rfl | hc
      · exact hd
      · exact ih c hc

theorem Memory.read_insert {a : Nat} {m : List Host.Cell} (h : Memory.Absent a m) (v : Byte) (b : Nat) :
    Memory.read font (Memory.insert a v m) b = if b = a then v else Memory.read font m b := by
  induction m with
  | nil =>
    by_cases hb : b = a
    · simp [Memory.insert, Memory.read, hb]
    · simp [Memory.insert, Memory.read, hb, Ne.symm hb]
  | cons c m ih =>
    have hc : c.1 ≠ a := h c (by simp)
    have hm : Memory.Absent a m := fun d hd => h d (by simp [hd])
    by_cases hlt : a < c.1
    · simp only [Memory.insert, hlt, if_true, Memory.read]
      by_cases hb : b = a
      · simp [hb]
      · simp [hb, Ne.symm hb]
    · simp only [Memory.insert, hlt, if_false, Memory.read, ih hm]
      by_cases hb : b = a
      · subst hb; simp [hc]
      · simp [hb]

/-- Read after write, on any list of cells. -/
theorem Memory.read_write (m : List Host.Cell) (a : Nat) (v : Byte) (b : Nat) :
    Memory.read font (Memory.write font m a v) b = if b = a then v else Memory.read font m b := by
  by_cases hv : v = Memory.unlisted font a
  · by_cases hb : b = a
    · subst hb; simp [Memory.write, hv, Memory.read_erase]
    · simp [Memory.write, hv, Memory.read_erase, hb]
  · by_cases hb : b = a
    · simp [Memory.write, hv, Memory.read_insert font (Memory.erase_absent a m), hb]
    · simp [Memory.write, hv, Memory.read_insert font (Memory.erase_absent a m), hb, Memory.read_erase]

@[simp] theorem Memory.wfFrom_nil (lo : Nat) : Memory.wfFrom font lo [] = true := rfl

theorem Memory.wfFrom_cons {lo : Nat} {c : Host.Cell} {m : List Host.Cell} :
    Memory.wfFrom font lo (c :: m) = true ↔
      lo ≤ c.1 ∧ c.1 < memSize ∧ c.2 ≠ Memory.unlisted font c.1 ∧ Memory.wfFrom font (c.1 + 1) m = true := by
  simp only [Memory.wfFrom, Bool.and_eq_true, decide_eq_true_eq, and_assoc]

theorem Memory.wfFrom_weaken {lo lo' : Nat} (hle : lo' ≤ lo) {m : List Host.Cell}
    (h : Memory.wfFrom font lo m = true) : Memory.wfFrom font lo' m = true := by
  cases m with
  | nil => rfl
  | cons c m =>
    rw [Memory.wfFrom_cons] at h ⊢
    exact ⟨hle.trans h.1, h.2⟩

theorem Memory.wfFrom_erase (a : Nat) {lo : Nat} {m : List Host.Cell} (h : Memory.wfFrom font lo m = true) :
    Memory.wfFrom font lo (Memory.erase a m) = true := by
  induction m generalizing lo with
  | nil => rfl
  | cons c m ih =>
    rw [Memory.wfFrom_cons] at h
    by_cases hc : c.1 = a
    · simp only [Memory.erase, hc, if_true]
      exact Memory.wfFrom_weaken font (by omega) (ih h.2.2.2)
    · simp only [Memory.erase, hc, if_false]
      exact (Memory.wfFrom_cons font).2 ⟨h.1, h.2.1, h.2.2.1, ih h.2.2.2⟩

theorem Memory.wfFrom_insert {a : Nat} {v : Byte} (ha : a < memSize) (hv : v ≠ Memory.unlisted font a) {lo : Nat}
    (hlo : lo ≤ a) {m : List Host.Cell} (habs : Memory.Absent a m) (h : Memory.wfFrom font lo m = true) :
    Memory.wfFrom font lo (Memory.insert a v m) = true := by
  induction m generalizing lo with
  | nil => exact (Memory.wfFrom_cons font).2 ⟨hlo, ha, hv, rfl⟩
  | cons c m ih =>
    rw [Memory.wfFrom_cons] at h
    have hc : c.1 ≠ a := habs c (by simp)
    by_cases hlt : a < c.1
    · simp only [Memory.insert, hlt, if_true]
      refine (Memory.wfFrom_cons font).2 ⟨hlo, ha, hv, (Memory.wfFrom_cons font).2 ⟨hlt, h.2.1, h.2.2.1, h.2.2.2⟩⟩
    · simp only [Memory.insert, hlt, if_false]
      exact (Memory.wfFrom_cons font).2
        ⟨h.1, h.2.1, h.2.2.1, ih (by omega) (fun d hd => habs d (by simp [hd])) h.2.2.2⟩

/-- A write inside memory keeps the canonical form. -/
theorem Memory.wf_write {m : List Host.Cell} (h : Memory.wf font m = true) {a : Nat} (ha : a < memSize) (v : Byte) :
    Memory.wf font (Memory.write font m a v) = true := by
  unfold Memory.wf Memory.write at *
  split
  · exact Memory.wfFrom_erase font a h
  · rename_i hv
    exact Memory.wfFrom_insert font ha hv (Nat.zero_le a) (Memory.erase_absent a m) (Memory.wfFrom_erase font a h)

@[simp] theorem Memory.wf_nil : Memory.wf font [] = true := rfl

/-- Below the bound of a canonical form every address reads as unlisted. -/
theorem Memory.read_below {lo : Nat} {m : List Host.Cell} (h : Memory.wfFrom font lo m = true) {a : Nat} (ha : a < lo) :
    Memory.read font m a = Memory.unlisted font a := by
  induction m generalizing lo with
  | nil => rfl
  | cons c m ih =>
    rw [Memory.wfFrom_cons] at h
    have hne : c.1 ≠ a := by omega
    simp only [Memory.read, hne, if_false]
    exact ih h.2.2.2 (by omega)

end Sys2Proof.Machine
end

