-- ==== Sys2Proof/Laws/State.lean ====
section
/-! SUPPORT. For each operation that updates the state by one record update, what each field and each reading accessor gives
after it, so that no later proof unfolds a record update. -/

namespace Sys2Proof.Machine

variable (s : State)

/-! ### writeV -/

@[simp] theorem State.writeV_v (r : Reg) (b : Byte) : (s.writeV r b).v = s.v.set r b := rfl
@[simp] theorem State.writeV_i (r : Reg) (b : Byte) : (s.writeV r b).i = s.i := rfl
@[simp] theorem State.writeV_pc (r : Reg) (b : Byte) : (s.writeV r b).pc = s.pc := rfl
@[simp] theorem State.writeV_stack (r : Reg) (b : Byte) : (s.writeV r b).stack = s.stack := rfl
@[simp] theorem State.writeV_sp (r : Reg) (b : Byte) : (s.writeV r b).sp = s.sp := rfl
@[simp] theorem State.writeV_dt (r : Reg) (b : Byte) : (s.writeV r b).dt = s.dt := rfl
@[simp] theorem State.writeV_st (r : Reg) (b : Byte) : (s.writeV r b).st = s.st := rfl
@[simp] theorem State.writeV_key (r : Reg) (b : Byte) : (s.writeV r b).key = s.key := rfl
@[simp] theorem State.writeV_wait (r : Reg) (b : Byte) : (s.writeV r b).wait = s.wait := rfl
@[simp] theorem State.writeV_mem (r : Reg) (b : Byte) : (s.writeV r b).mem = s.mem := rfl
@[simp] theorem State.writeV_disp (r : Reg) (b : Byte) : (s.writeV r b).disp = s.disp := rfl
@[simp] theorem State.writeV_changed (r : Reg) (b : Byte) : (s.writeV r b).changed = s.changed := rfl
@[simp] theorem State.writeV_err (r : Reg) (b : Byte) : (s.writeV r b).err = s.err := rfl
@[simp] theorem State.writeV_cfg (r : Reg) (b : Byte) : (s.writeV r b).cfg = s.cfg := rfl
@[simp] theorem State.writeV_draws (r : Reg) (b : Byte) : (s.writeV r b).draws = s.draws := rfl
@[simp] theorem State.writeV_readKey (r : Reg) (b : Byte) (q : Reg) : (s.writeV r b).readKey q = s.readKey q := rfl
@[simp] theorem State.writeV_memRead (r : Reg) (b : Byte) (a : Nat) : (s.writeV r b).memRead a = s.memRead a := rfl
@[simp] theorem State.writeV_pixel (r : Reg) (b : Byte) (q : Fin 32) (p : Fin 64) : (s.writeV r b).pixel q p = s.pixel q p := rfl
@[simp] theorem State.writeV_ea (r : Reg) (b : Byte) (base : Word) (j : Nat) : (s.writeV r b).ea base j = s.ea base j := rfl

/-! ### writeI -/

@[simp] theorem State.writeI_v (w : Word) : (s.writeI w).v = s.v := rfl
@[simp] theorem State.writeI_i (w : Word) : (s.writeI w).i = w := rfl
@[simp] theorem State.writeI_pc (w : Word) : (s.writeI w).pc = s.pc := rfl
@[simp] theorem State.writeI_stack (w : Word) : (s.writeI w).stack = s.stack := rfl
@[simp] theorem State.writeI_sp (w : Word) : (s.writeI w).sp = s.sp := rfl
@[simp] theorem State.writeI_dt (w : Word) : (s.writeI w).dt = s.dt := rfl
@[simp] theorem State.writeI_st (w : Word) : (s.writeI w).st = s.st := rfl
@[simp] theorem State.writeI_key (w : Word) : (s.writeI w).key = s.key := rfl
@[simp] theorem State.writeI_wait (w : Word) : (s.writeI w).wait = s.wait := rfl
@[simp] theorem State.writeI_mem (w : Word) : (s.writeI w).mem = s.mem := rfl
@[simp] theorem State.writeI_disp (w : Word) : (s.writeI w).disp = s.disp := rfl
@[simp] theorem State.writeI_changed (w : Word) : (s.writeI w).changed = s.changed := rfl
@[simp] theorem State.writeI_err (w : Word) : (s.writeI w).err = s.err := rfl
@[simp] theorem State.writeI_cfg (w : Word) : (s.writeI w).cfg = s.cfg := rfl
@[simp] theorem State.writeI_draws (w : Word) : (s.writeI w).draws = s.draws := rfl
@[simp] theorem State.writeI_readV (w : Word) (q : Reg) : (s.writeI w).readV q = s.readV q := rfl
@[simp] theorem State.writeI_readKey (w : Word) (q : Reg) : (s.writeI w).readKey q = s.readKey q := rfl
@[simp] theorem State.writeI_memRead (w : Word) (a : Nat) : (s.writeI w).memRead a = s.memRead a := rfl
@[simp] theorem State.writeI_pixel (w : Word) (q : Fin 32) (p : Fin 64) : (s.writeI w).pixel q p = s.pixel q p := rfl
@[simp] theorem State.writeI_ea (w : Word) (base : Word) (j : Nat) : (s.writeI w).ea base j = s.ea base j := rfl

/-! ### writePc -/

@[simp] theorem State.writePc_v (w : Word) : (s.writePc w).v = s.v := rfl
@[simp] theorem State.writePc_i (w : Word) : (s.writePc w).i = s.i := rfl
@[simp] theorem State.writePc_pc (w : Word) : (s.writePc w).pc = w := rfl
@[simp] theorem State.writePc_stack (w : Word) : (s.writePc w).stack = s.stack := rfl
@[simp] theorem State.writePc_sp (w : Word) : (s.writePc w).sp = s.sp := rfl
@[simp] theorem State.writePc_dt (w : Word) : (s.writePc w).dt = s.dt := rfl
@[simp] theorem State.writePc_st (w : Word) : (s.writePc w).st = s.st := rfl
@[simp] theorem State.writePc_key (w : Word) : (s.writePc w).key = s.key := rfl
@[simp] theorem State.writePc_wait (w : Word) : (s.writePc w).wait = s.wait := rfl
@[simp] theorem State.writePc_mem (w : Word) : (s.writePc w).mem = s.mem := rfl
@[simp] theorem State.writePc_disp (w : Word) : (s.writePc w).disp = s.disp := rfl
@[simp] theorem State.writePc_changed (w : Word) : (s.writePc w).changed = s.changed := rfl
@[simp] theorem State.writePc_err (w : Word) : (s.writePc w).err = s.err := rfl
@[simp] theorem State.writePc_cfg (w : Word) : (s.writePc w).cfg = s.cfg := rfl
@[simp] theorem State.writePc_draws (w : Word) : (s.writePc w).draws = s.draws := rfl
@[simp] theorem State.writePc_readV (w : Word) (q : Reg) : (s.writePc w).readV q = s.readV q := rfl
@[simp] theorem State.writePc_readKey (w : Word) (q : Reg) : (s.writePc w).readKey q = s.readKey q := rfl
@[simp] theorem State.writePc_memRead (w : Word) (a : Nat) : (s.writePc w).memRead a = s.memRead a := rfl
@[simp] theorem State.writePc_pixel (w : Word) (q : Fin 32) (p : Fin 64) : (s.writePc w).pixel q p = s.pixel q p := rfl
@[simp] theorem State.writePc_ea (w : Word) (base : Word) (j : Nat) : (s.writePc w).ea base j = s.ea base j := rfl

/-! ### advancePc -/

@[simp] theorem State.advancePc_v : (s.advancePc).v = s.v := rfl
@[simp] theorem State.advancePc_i : (s.advancePc).i = s.i := rfl
@[simp] theorem State.advancePc_pc : (s.advancePc).pc = trunc16 (s.pc.toNat + 2) := rfl
@[simp] theorem State.advancePc_stack : (s.advancePc).stack = s.stack := rfl
@[simp] theorem State.advancePc_sp : (s.advancePc).sp = s.sp := rfl
@[simp] theorem State.advancePc_dt : (s.advancePc).dt = s.dt := rfl
@[simp] theorem State.advancePc_st : (s.advancePc).st = s.st := rfl
@[simp] theorem State.advancePc_key : (s.advancePc).key = s.key := rfl
@[simp] theorem State.advancePc_wait : (s.advancePc).wait = s.wait := rfl
@[simp] theorem State.advancePc_mem : (s.advancePc).mem = s.mem := rfl
@[simp] theorem State.advancePc_disp : (s.advancePc).disp = s.disp := rfl
@[simp] theorem State.advancePc_changed : (s.advancePc).changed = s.changed := rfl
@[simp] theorem State.advancePc_err : (s.advancePc).err = s.err := rfl
@[simp] theorem State.advancePc_cfg : (s.advancePc).cfg = s.cfg := rfl
@[simp] theorem State.advancePc_draws : (s.advancePc).draws = s.draws := rfl
@[simp] theorem State.advancePc_readV (q : Reg) : (s.advancePc).readV q = s.readV q := rfl
@[simp] theorem State.advancePc_readKey (q : Reg) : (s.advancePc).readKey q = s.readKey q := rfl
@[simp] theorem State.advancePc_memRead (a : Nat) : (s.advancePc).memRead a = s.memRead a := rfl
@[simp] theorem State.advancePc_pixel (q : Fin 32) (p : Fin 64) : (s.advancePc).pixel q p = s.pixel q p := rfl
@[simp] theorem State.advancePc_ea (base : Word) (j : Nat) : (s.advancePc).ea base j = s.ea base j := rfl

/-! ### writeDT -/

@[simp] theorem State.writeDT_v (b : Byte) : (s.writeDT b).v = s.v := rfl
@[simp] theorem State.writeDT_i (b : Byte) : (s.writeDT b).i = s.i := rfl
@[simp] theorem State.writeDT_pc (b : Byte) : (s.writeDT b).pc = s.pc := rfl
@[simp] theorem State.writeDT_stack (b : Byte) : (s.writeDT b).stack = s.stack := rfl
@[simp] theorem State.writeDT_sp (b : Byte) : (s.writeDT b).sp = s.sp := rfl
@[simp] theorem State.writeDT_dt (b : Byte) : (s.writeDT b).dt = b := rfl
@[simp] theorem State.writeDT_st (b : Byte) : (s.writeDT b).st = s.st := rfl
@[simp] theorem State.writeDT_key (b : Byte) : (s.writeDT b).key = s.key := rfl
@[simp] theorem State.writeDT_wait (b : Byte) : (s.writeDT b).wait = s.wait := rfl
@[simp] theorem State.writeDT_mem (b : Byte) : (s.writeDT b).mem = s.mem := rfl
@[simp] theorem State.writeDT_disp (b : Byte) : (s.writeDT b).disp = s.disp := rfl
@[simp] theorem State.writeDT_changed (b : Byte) : (s.writeDT b).changed = s.changed := rfl
@[simp] theorem State.writeDT_err (b : Byte) : (s.writeDT b).err = s.err := rfl
@[simp] theorem State.writeDT_cfg (b : Byte) : (s.writeDT b).cfg = s.cfg := rfl
@[simp] theorem State.writeDT_draws (b : Byte) : (s.writeDT b).draws = s.draws := rfl
@[simp] theorem State.writeDT_readV (b : Byte) (q : Reg) : (s.writeDT b).readV q = s.readV q := rfl
@[simp] theorem State.writeDT_readKey (b : Byte) (q : Reg) : (s.writeDT b).readKey q = s.readKey q := rfl
@[simp] theorem State.writeDT_memRead (b : Byte) (a : Nat) : (s.writeDT b).memRead a = s.memRead a := rfl
@[simp] theorem State.writeDT_pixel (b : Byte) (q : Fin 32) (p : Fin 64) : (s.writeDT b).pixel q p = s.pixel q p := rfl
@[simp] theorem State.writeDT_ea (b : Byte) (base : Word) (j : Nat) : (s.writeDT b).ea base j = s.ea base j := rfl

/-! ### writeST -/

@[simp] theorem State.writeST_v (b : Byte) : (s.writeST b).v = s.v := rfl
@[simp] theorem State.writeST_i (b : Byte) : (s.writeST b).i = s.i := rfl
@[simp] theorem State.writeST_pc (b : Byte) : (s.writeST b).pc = s.pc := rfl
@[simp] theorem State.writeST_stack (b : Byte) : (s.writeST b).stack = s.stack := rfl
@[simp] theorem State.writeST_sp (b : Byte) : (s.writeST b).sp = s.sp := rfl
@[simp] theorem State.writeST_dt (b : Byte) : (s.writeST b).dt = s.dt := rfl
@[simp] theorem State.writeST_st (b : Byte) : (s.writeST b).st = b := rfl
@[simp] theorem State.writeST_key (b : Byte) : (s.writeST b).key = s.key := rfl
@[simp] theorem State.writeST_wait (b : Byte) : (s.writeST b).wait = s.wait := rfl
@[simp] theorem State.writeST_mem (b : Byte) : (s.writeST b).mem = s.mem := rfl
@[simp] theorem State.writeST_disp (b : Byte) : (s.writeST b).disp = s.disp := rfl
@[simp] theorem State.writeST_changed (b : Byte) : (s.writeST b).changed = s.changed := rfl
@[simp] theorem State.writeST_err (b : Byte) : (s.writeST b).err = s.err := rfl
@[simp] theorem State.writeST_cfg (b : Byte) : (s.writeST b).cfg = s.cfg := rfl
@[simp] theorem State.writeST_draws (b : Byte) : (s.writeST b).draws = s.draws := rfl
@[simp] theorem State.writeST_readV (b : Byte) (q : Reg) : (s.writeST b).readV q = s.readV q := rfl
@[simp] theorem State.writeST_readKey (b : Byte) (q : Reg) : (s.writeST b).readKey q = s.readKey q := rfl
@[simp] theorem State.writeST_memRead (b : Byte) (a : Nat) : (s.writeST b).memRead a = s.memRead a := rfl
@[simp] theorem State.writeST_pixel (b : Byte) (q : Fin 32) (p : Fin 64) : (s.writeST b).pixel q p = s.pixel q p := rfl
@[simp] theorem State.writeST_ea (b : Byte) (base : Word) (j : Nat) : (s.writeST b).ea base j = s.ea base j := rfl

/-! ### writeKey -/

@[simp] theorem State.writeKey_v (k : Reg) (b : Bool) : (s.writeKey k b).v = s.v := rfl
@[simp] theorem State.writeKey_i (k : Reg) (b : Bool) : (s.writeKey k b).i = s.i := rfl
@[simp] theorem State.writeKey_pc (k : Reg) (b : Bool) : (s.writeKey k b).pc = s.pc := rfl
@[simp] theorem State.writeKey_stack (k : Reg) (b : Bool) : (s.writeKey k b).stack = s.stack := rfl
@[simp] theorem State.writeKey_sp (k : Reg) (b : Bool) : (s.writeKey k b).sp = s.sp := rfl
@[simp] theorem State.writeKey_dt (k : Reg) (b : Bool) : (s.writeKey k b).dt = s.dt := rfl
@[simp] theorem State.writeKey_st (k : Reg) (b : Bool) : (s.writeKey k b).st = s.st := rfl
@[simp] theorem State.writeKey_key (k : Reg) (b : Bool) : (s.writeKey k b).key = s.key.set k b := rfl
@[simp] theorem State.writeKey_wait (k : Reg) (b : Bool) : (s.writeKey k b).wait = s.wait := rfl
@[simp] theorem State.writeKey_mem (k : Reg) (b : Bool) : (s.writeKey k b).mem = s.mem := rfl
@[simp] theorem State.writeKey_disp (k : Reg) (b : Bool) : (s.writeKey k b).disp = s.disp := rfl
@[simp] theorem State.writeKey_changed (k : Reg) (b : Bool) : (s.writeKey k b).changed = s.changed := rfl
@[simp] theorem State.writeKey_err (k : Reg) (b : Bool) : (s.writeKey k b).err = s.err := rfl
@[simp] theorem State.writeKey_cfg (k : Reg) (b : Bool) : (s.writeKey k b).cfg = s.cfg := rfl
@[simp] theorem State.writeKey_draws (k : Reg) (b : Bool) : (s.writeKey k b).draws = s.draws := rfl
@[simp] theorem State.writeKey_readV (k : Reg) (b : Bool) (q : Reg) : (s.writeKey k b).readV q = s.readV q := rfl
@[simp] theorem State.writeKey_memRead (k : Reg) (b : Bool) (a : Nat) : (s.writeKey k b).memRead a = s.memRead a := rfl
@[simp] theorem State.writeKey_pixel (k : Reg) (b : Bool) (q : Fin 32) (p : Fin 64) : (s.writeKey k b).pixel q p = s.pixel q p := rfl
@[simp] theorem State.writeKey_ea (k : Reg) (b : Bool) (base : Word) (j : Nat) : (s.writeKey k b).ea base j = s.ea base j := rfl

/-! ### writeWait -/

@[simp] theorem State.writeWait_v (w : Option Reg) : (s.writeWait w).v = s.v := rfl
@[simp] theorem State.writeWait_i (w : Option Reg) : (s.writeWait w).i = s.i := rfl
@[simp] theorem State.writeWait_pc (w : Option Reg) : (s.writeWait w).pc = s.pc := rfl
@[simp] theorem State.writeWait_stack (w : Option Reg) : (s.writeWait w).stack = s.stack := rfl
@[simp] theorem State.writeWait_sp (w : Option Reg) : (s.writeWait w).sp = s.sp := rfl
@[simp] theorem State.writeWait_dt (w : Option Reg) : (s.writeWait w).dt = s.dt := rfl
@[simp] theorem State.writeWait_st (w : Option Reg) : (s.writeWait w).st = s.st := rfl
@[simp] theorem State.writeWait_key (w : Option Reg) : (s.writeWait w).key = s.key := rfl
@[simp] theorem State.writeWait_wait (w : Option Reg) : (s.writeWait w).wait = w := rfl
@[simp] theorem State.writeWait_mem (w : Option Reg) : (s.writeWait w).mem = s.mem := rfl
@[simp] theorem State.writeWait_disp (w : Option Reg) : (s.writeWait w).disp = s.disp := rfl
@[simp] theorem State.writeWait_changed (w : Option Reg) : (s.writeWait w).changed = s.changed := rfl
@[simp] theorem State.writeWait_err (w : Option Reg) : (s.writeWait w).err = s.err := rfl
@[simp] theorem State.writeWait_cfg (w : Option Reg) : (s.writeWait w).cfg = s.cfg := rfl
@[simp] theorem State.writeWait_draws (w : Option Reg) : (s.writeWait w).draws = s.draws := rfl
@[simp] theorem State.writeWait_readV (w : Option Reg) (q : Reg) : (s.writeWait w).readV q = s.readV q := rfl
@[simp] theorem State.writeWait_readKey (w : Option Reg) (q : Reg) : (s.writeWait w).readKey q = s.readKey q := rfl
@[simp] theorem State.writeWait_memRead (w : Option Reg) (a : Nat) : (s.writeWait w).memRead a = s.memRead a := rfl
@[simp] theorem State.writeWait_pixel (w : Option Reg) (q : Fin 32) (p : Fin 64) : (s.writeWait w).pixel q p = s.pixel q p := rfl
@[simp] theorem State.writeWait_ea (w : Option Reg) (base : Word) (j : Nat) : (s.writeWait w).ea base j = s.ea base j := rfl

/-! ### setPixel -/

@[simp] theorem State.setPixel_v (row : Fin 32) (col : Fin 64) (b : Bool) : (s.setPixel row col b).v = s.v := rfl
@[simp] theorem State.setPixel_i (row : Fin 32) (col : Fin 64) (b : Bool) : (s.setPixel row col b).i = s.i := rfl
@[simp] theorem State.setPixel_pc (row : Fin 32) (col : Fin 64) (b : Bool) : (s.setPixel row col b).pc = s.pc := rfl
@[simp] theorem State.setPixel_stack (row : Fin 32) (col : Fin 64) (b : Bool) : (s.setPixel row col b).stack = s.stack := rfl
@[simp] theorem State.setPixel_sp (row : Fin 32) (col : Fin 64) (b : Bool) : (s.setPixel row col b).sp = s.sp := rfl
@[simp] theorem State.setPixel_dt (row : Fin 32) (col : Fin 64) (b : Bool) : (s.setPixel row col b).dt = s.dt := rfl
@[simp] theorem State.setPixel_st (row : Fin 32) (col : Fin 64) (b : Bool) : (s.setPixel row col b).st = s.st := rfl
@[simp] theorem State.setPixel_key (row : Fin 32) (col : Fin 64) (b : Bool) : (s.setPixel row col b).key = s.key := rfl
@[simp] theorem State.setPixel_wait (row : Fin 32) (col : Fin 64) (b : Bool) : (s.setPixel row col b).wait = s.wait := rfl
@[simp] theorem State.setPixel_mem (row : Fin 32) (col : Fin 64) (b : Bool) : (s.setPixel row col b).mem = s.mem := rfl
@[simp] theorem State.setPixel_disp (row : Fin 32) (col : Fin 64) (b : Bool) : (s.setPixel row col b).disp = s.disp.set row ((s.disp[row]).set col b) := rfl
@[simp] theorem State.setPixel_changed (row : Fin 32) (col : Fin 64) (b : Bool) : (s.setPixel row col b).changed = s.changed := rfl
@[simp] theorem State.setPixel_err (row : Fin 32) (col : Fin 64) (b : Bool) : (s.setPixel row col b).err = s.err := rfl
@[simp] theorem State.setPixel_cfg (row : Fin 32) (col : Fin 64) (b : Bool) : (s.setPixel row col b).cfg = s.cfg := rfl
@[simp] theorem State.setPixel_draws (row : Fin 32) (col : Fin 64) (b : Bool) : (s.setPixel row col b).draws = s.draws := rfl
@[simp] theorem State.setPixel_readV (row : Fin 32) (col : Fin 64) (b : Bool) (q : Reg) : (s.setPixel row col b).readV q = s.readV q := rfl
@[simp] theorem State.setPixel_readKey (row : Fin 32) (col : Fin 64) (b : Bool) (q : Reg) : (s.setPixel row col b).readKey q = s.readKey q := rfl
@[simp] theorem State.setPixel_memRead (row : Fin 32) (col : Fin 64) (b : Bool) (a : Nat) : (s.setPixel row col b).memRead a = s.memRead a := rfl
@[simp] theorem State.setPixel_ea (row : Fin 32) (col : Fin 64) (b : Bool) (base : Word) (j : Nat) : (s.setPixel row col b).ea base j = s.ea base j := rfl

/-! ### clearDisplay -/

@[simp] theorem State.clearDisplay_v : (s.clearDisplay).v = s.v := rfl
@[simp] theorem State.clearDisplay_i : (s.clearDisplay).i = s.i := rfl
@[simp] theorem State.clearDisplay_pc : (s.clearDisplay).pc = s.pc := rfl
@[simp] theorem State.clearDisplay_stack : (s.clearDisplay).stack = s.stack := rfl
@[simp] theorem State.clearDisplay_sp : (s.clearDisplay).sp = s.sp := rfl
@[simp] theorem State.clearDisplay_dt : (s.clearDisplay).dt = s.dt := rfl
@[simp] theorem State.clearDisplay_st : (s.clearDisplay).st = s.st := rfl
@[simp] theorem State.clearDisplay_key : (s.clearDisplay).key = s.key := rfl
@[simp] theorem State.clearDisplay_wait : (s.clearDisplay).wait = s.wait := rfl
@[simp] theorem State.clearDisplay_mem : (s.clearDisplay).mem = s.mem := rfl
@[simp] theorem State.clearDisplay_disp : (s.clearDisplay).disp = Vector.replicate 32 (Vector.replicate 64 false) := rfl
@[simp] theorem State.clearDisplay_changed : (s.clearDisplay).changed = s.changed := rfl
@[simp] theorem State.clearDisplay_err : (s.clearDisplay).err = s.err := rfl
@[simp] theorem State.clearDisplay_cfg : (s.clearDisplay).cfg = s.cfg := rfl
@[simp] theorem State.clearDisplay_draws : (s.clearDisplay).draws = s.draws := rfl
@[simp] theorem State.clearDisplay_readV (q : Reg) : (s.clearDisplay).readV q = s.readV q := rfl
@[simp] theorem State.clearDisplay_readKey (q : Reg) : (s.clearDisplay).readKey q = s.readKey q := rfl
@[simp] theorem State.clearDisplay_memRead (a : Nat) : (s.clearDisplay).memRead a = s.memRead a := rfl
@[simp] theorem State.clearDisplay_ea (base : Word) (j : Nat) : (s.clearDisplay).ea base j = s.ea base j := rfl

/-! ### markChanged -/

@[simp] theorem State.markChanged_v (f : Bool) : (s.markChanged f).v = s.v := rfl
@[simp] theorem State.markChanged_i (f : Bool) : (s.markChanged f).i = s.i := rfl
@[simp] theorem State.markChanged_pc (f : Bool) : (s.markChanged f).pc = s.pc := rfl
@[simp] theorem State.markChanged_stack (f : Bool) : (s.markChanged f).stack = s.stack := rfl
@[simp] theorem State.markChanged_sp (f : Bool) : (s.markChanged f).sp = s.sp := rfl
@[simp] theorem State.markChanged_dt (f : Bool) : (s.markChanged f).dt = s.dt := rfl
@[simp] theorem State.markChanged_st (f : Bool) : (s.markChanged f).st = s.st := rfl
@[simp] theorem State.markChanged_key (f : Bool) : (s.markChanged f).key = s.key := rfl
@[simp] theorem State.markChanged_wait (f : Bool) : (s.markChanged f).wait = s.wait := rfl
@[simp] theorem State.markChanged_mem (f : Bool) : (s.markChanged f).mem = s.mem := rfl
@[simp] theorem State.markChanged_disp (f : Bool) : (s.markChanged f).disp = s.disp := rfl
@[simp] theorem State.markChanged_changed (f : Bool) : (s.markChanged f).changed = (s.changed || f) := rfl
@[simp] theorem State.markChanged_err (f : Bool) : (s.markChanged f).err = s.err := rfl
@[simp] theorem State.markChanged_cfg (f : Bool) : (s.markChanged f).cfg = s.cfg := rfl
@[simp] theorem State.markChanged_draws (f : Bool) : (s.markChanged f).draws = s.draws := rfl
@[simp] theorem State.markChanged_readV (f : Bool) (q : Reg) : (s.markChanged f).readV q = s.readV q := rfl
@[simp] theorem State.markChanged_readKey (f : Bool) (q : Reg) : (s.markChanged f).readKey q = s.readKey q := rfl
@[simp] theorem State.markChanged_memRead (f : Bool) (a : Nat) : (s.markChanged f).memRead a = s.memRead a := rfl
@[simp] theorem State.markChanged_pixel (f : Bool) (q : Fin 32) (p : Fin 64) : (s.markChanged f).pixel q p = s.pixel q p := rfl
@[simp] theorem State.markChanged_ea (f : Bool) (base : Word) (j : Nat) : (s.markChanged f).ea base j = s.ea base j := rfl

/-! ### clearChanged -/

@[simp] theorem State.clearChanged_v : (s.clearChanged).v = s.v := rfl
@[simp] theorem State.clearChanged_i : (s.clearChanged).i = s.i := rfl
@[simp] theorem State.clearChanged_pc : (s.clearChanged).pc = s.pc := rfl
@[simp] theorem State.clearChanged_stack : (s.clearChanged).stack = s.stack := rfl
@[simp] theorem State.clearChanged_sp : (s.clearChanged).sp = s.sp := rfl
@[simp] theorem State.clearChanged_dt : (s.clearChanged).dt = s.dt := rfl
@[simp] theorem State.clearChanged_st : (s.clearChanged).st = s.st := rfl
@[simp] theorem State.clearChanged_key : (s.clearChanged).key = s.key := rfl
@[simp] theorem State.clearChanged_wait : (s.clearChanged).wait = s.wait := rfl
@[simp] theorem State.clearChanged_mem : (s.clearChanged).mem = s.mem := rfl
@[simp] theorem State.clearChanged_disp : (s.clearChanged).disp = s.disp := rfl
@[simp] theorem State.clearChanged_changed : (s.clearChanged).changed = false := rfl
@[simp] theorem State.clearChanged_err : (s.clearChanged).err = s.err := rfl
@[simp] theorem State.clearChanged_cfg : (s.clearChanged).cfg = s.cfg := rfl
@[simp] theorem State.clearChanged_draws : (s.clearChanged).draws = s.draws := rfl
@[simp] theorem State.clearChanged_readV (q : Reg) : (s.clearChanged).readV q = s.readV q := rfl
@[simp] theorem State.clearChanged_readKey (q : Reg) : (s.clearChanged).readKey q = s.readKey q := rfl
@[simp] theorem State.clearChanged_memRead (a : Nat) : (s.clearChanged).memRead a = s.memRead a := rfl
@[simp] theorem State.clearChanged_pixel (q : Fin 32) (p : Fin 64) : (s.clearChanged).pixel q p = s.pixel q p := rfl
@[simp] theorem State.clearChanged_ea (base : Word) (j : Nat) : (s.clearChanged).ea base j = s.ea base j := rfl

/-! ### takeDraw -/

@[simp] theorem State.takeDraw_v : (s.takeDraw).v = s.v := rfl
@[simp] theorem State.takeDraw_i : (s.takeDraw).i = s.i := rfl
@[simp] theorem State.takeDraw_pc : (s.takeDraw).pc = s.pc := rfl
@[simp] theorem State.takeDraw_stack : (s.takeDraw).stack = s.stack := rfl
@[simp] theorem State.takeDraw_sp : (s.takeDraw).sp = s.sp := rfl
@[simp] theorem State.takeDraw_dt : (s.takeDraw).dt = s.dt := rfl
@[simp] theorem State.takeDraw_st : (s.takeDraw).st = s.st := rfl
@[simp] theorem State.takeDraw_key : (s.takeDraw).key = s.key := rfl
@[simp] theorem State.takeDraw_wait : (s.takeDraw).wait = s.wait := rfl
@[simp] theorem State.takeDraw_mem : (s.takeDraw).mem = s.mem := rfl
@[simp] theorem State.takeDraw_disp : (s.takeDraw).disp = s.disp := rfl
@[simp] theorem State.takeDraw_changed : (s.takeDraw).changed = s.changed := rfl
@[simp] theorem State.takeDraw_err : (s.takeDraw).err = s.err := rfl
@[simp] theorem State.takeDraw_cfg : (s.takeDraw).cfg = s.cfg := rfl
@[simp] theorem State.takeDraw_draws : (s.takeDraw).draws = s.draws + 1 := rfl
@[simp] theorem State.takeDraw_readV (q : Reg) : (s.takeDraw).readV q = s.readV q := rfl
@[simp] theorem State.takeDraw_readKey (q : Reg) : (s.takeDraw).readKey q = s.readKey q := rfl
@[simp] theorem State.takeDraw_memRead (a : Nat) : (s.takeDraw).memRead a = s.memRead a := rfl
@[simp] theorem State.takeDraw_pixel (q : Fin 32) (p : Fin 64) : (s.takeDraw).pixel q p = s.pixel q p := rfl
@[simp] theorem State.takeDraw_ea (base : Word) (j : Nat) : (s.takeDraw).ea base j = s.ea base j := rfl

/-! ### raiseUnrecognizedOpcode -/

@[simp] theorem State.raiseUnrecognizedOpcode_v (op fa : Word) : (s.raiseUnrecognizedOpcode op fa).v = s.v := rfl
@[simp] theorem State.raiseUnrecognizedOpcode_i (op fa : Word) : (s.raiseUnrecognizedOpcode op fa).i = s.i := rfl
@[simp] theorem State.raiseUnrecognizedOpcode_pc (op fa : Word) : (s.raiseUnrecognizedOpcode op fa).pc = s.pc := rfl
@[simp] theorem State.raiseUnrecognizedOpcode_stack (op fa : Word) : (s.raiseUnrecognizedOpcode op fa).stack = s.stack := rfl
@[simp] theorem State.raiseUnrecognizedOpcode_sp (op fa : Word) : (s.raiseUnrecognizedOpcode op fa).sp = s.sp := rfl
@[simp] theorem State.raiseUnrecognizedOpcode_dt (op fa : Word) : (s.raiseUnrecognizedOpcode op fa).dt = s.dt := rfl
@[simp] theorem State.raiseUnrecognizedOpcode_st (op fa : Word) : (s.raiseUnrecognizedOpcode op fa).st = s.st := rfl
@[simp] theorem State.raiseUnrecognizedOpcode_key (op fa : Word) : (s.raiseUnrecognizedOpcode op fa).key = s.key := rfl
@[simp] theorem State.raiseUnrecognizedOpcode_wait (op fa : Word) : (s.raiseUnrecognizedOpcode op fa).wait = s.wait := rfl
@[simp] theorem State.raiseUnrecognizedOpcode_mem (op fa : Word) : (s.raiseUnrecognizedOpcode op fa).mem = s.mem := rfl
@[simp] theorem State.raiseUnrecognizedOpcode_disp (op fa : Word) : (s.raiseUnrecognizedOpcode op fa).disp = s.disp := rfl
@[simp] theorem State.raiseUnrecognizedOpcode_changed (op fa : Word) : (s.raiseUnrecognizedOpcode op fa).changed = s.changed := rfl
@[simp] theorem State.raiseUnrecognizedOpcode_err (op fa : Word) : (s.raiseUnrecognizedOpcode op fa).err = some ⟨op, fa⟩ := rfl
@[simp] theorem State.raiseUnrecognizedOpcode_cfg (op fa : Word) : (s.raiseUnrecognizedOpcode op fa).cfg = s.cfg := rfl
@[simp] theorem State.raiseUnrecognizedOpcode_draws (op fa : Word) : (s.raiseUnrecognizedOpcode op fa).draws = s.draws := rfl
@[simp] theorem State.raiseUnrecognizedOpcode_readV (op fa : Word) (q : Reg) : (s.raiseUnrecognizedOpcode op fa).readV q = s.readV q := rfl
@[simp] theorem State.raiseUnrecognizedOpcode_readKey (op fa : Word) (q : Reg) : (s.raiseUnrecognizedOpcode op fa).readKey q = s.readKey q := rfl
@[simp] theorem State.raiseUnrecognizedOpcode_memRead (op fa : Word) (a : Nat) : (s.raiseUnrecognizedOpcode op fa).memRead a = s.memRead a := rfl
@[simp] theorem State.raiseUnrecognizedOpcode_pixel (op fa : Word) (q : Fin 32) (p : Fin 64) : (s.raiseUnrecognizedOpcode op fa).pixel q p = s.pixel q p := rfl
@[simp] theorem State.raiseUnrecognizedOpcode_ea (op fa : Word) (base : Word) (j : Nat) : (s.raiseUnrecognizedOpcode op fa).ea base j = s.ea base j := rfl

end Sys2Proof.Machine
end

