-- ==== Sys2Proof/Laws/Ops.lean ====
section
/-! SUPPORT. One lemma for each shared operation that says everything it can do: registers, memory, stack, keys, display. -/

namespace Sys2Proof.Machine

variable (s : State)

/-! ### Registers -/

theorem State.readV_writeV (r q : Reg) (b : Byte) : (s.writeV r b).readV q = if q = r then b else s.readV q := by
  simp only [State.readV, State.writeV, Fin.getElem_fin, Vector.getElem_set]
  by_cases h : q = r
  · simp [h]
  · have : r.val ≠ q.val := fun e => h (Fin.ext e.symm)
    simp [h, this]

@[simp] theorem State.readV_writeV_self (r : Reg) (b : Byte) : (s.writeV r b).readV r = b := by
  simp [State.readV_writeV]

theorem State.readV_writeV_ne {r q : Reg} (h : q ≠ r) (b : Byte) : (s.writeV r b).readV q = s.readV q := by
  simp [State.readV_writeV, h]

theorem State.writeFlag_eq (f : Bool) : s.writeFlag f = s.writeV vf (flagByte f) := rfl

theorem State.skipIf_true : s.skipIf true = s.advancePc := rfl

theorem State.skipIf_false : s.skipIf false = s := rfl

/-- A skip changes PC alone. -/
theorem State.skipIf_eq (c : Bool) :
    s.skipIf c = s.writePc (if c then trunc16 (s.pc.toNat + 2) else s.pc) := by
  cases c <;> rfl

theorem mem_allRegs (r : Reg) : r ∈ allRegs := by
  revert r; decide

theorem mem_regsUpTo (x r : Reg) : r ∈ regsUpTo x ↔ r ≤ x := by
  revert x r; decide

theorem regsUpTo_nodup (x : Reg) : (regsUpTo x).Nodup := by
  revert x; decide

/-! ### Memory -/

theorem State.ea_wrap16 (h : s.cfg.addrSum = .wrap16) (base : Word) (k : Nat) :
    s.ea base k = (base.toNat + k) % 65536 := by
  simp [State.ea, h]

theorem State.ea_unbounded (h : s.cfg.addrSum = .unbounded) (base : Word) (k : Nat) :
    s.ea base k = base.toNat + k := by
  simp [State.ea, h]

/-- Below the wrap the two settings of ADDR_SUM agree. -/
theorem State.ea_of_lt {base : Word} {k : Nat} (h : base.toNat + k < 65536) : s.ea base k = base.toNat + k := by
  unfold State.ea
  split
  · exact Nat.mod_eq_of_lt h
  · rfl

/-- Different offsets below 65536 give different addresses. -/
theorem State.ea_inj (base : Word) {j k : Nat} (hj : j < 65536) (hk : k < 65536) (h : s.ea base j = s.ea base k) :
    j = k := by
  unfold State.ea at h
  have hb := base.isLt
  split at h <;> omega

theorem State.memRead_high {a : Nat} (h : memSize ≤ a) : s.memRead a = 0 := by
  simp [State.memRead, Nat.not_lt.2 h]

theorem State.memWrite_high {a : Nat} (h : memSize ≤ a) (b : Byte) : s.memWrite a b = s := by
  simp [State.memWrite, Nat.not_lt.2 h]

/-- A write changes MEM alone. -/
theorem State.memWrite_eq (a : Nat) (b : Byte) :
    ∃ m, s.memWrite a b = { s with mem := m } := by
  unfold State.memWrite
  split
  · exact ⟨_, rfl⟩
  · exact ⟨s.mem, rfl⟩

/-- Read after write. -/
theorem State.memRead_memWrite (a : Nat) (b : Byte) (c : Nat) :
    (s.memWrite a b).memRead c = if c = a ∧ a < memSize then b else s.memRead c := by
  by_cases ha : a < memSize
  · by_cases hc : c < memSize
    · simp [State.memWrite, State.memRead, ha, hc, Memory.read_write]
    · have hne : c ≠ a := by omega
      simp [State.memRead, hc, hne]
  · simp [State.memWrite, ha]

theorem State.memWf_memWrite (h : s.memWf = true) (a : Nat) (b : Byte) : (s.memWrite a b).memWf = true := by
  unfold State.memWf State.memWrite at *
  split
  · exact Memory.wf_write _ h (by assumption) b
  · exact h

@[simp] theorem State.memWrite_v (a : Nat) (b : Byte) : (s.memWrite a b).v = s.v := by
  unfold State.memWrite; split <;> rfl
@[simp] theorem State.memWrite_i (a : Nat) (b : Byte) : (s.memWrite a b).i = s.i := by
  unfold State.memWrite; split <;> rfl
@[simp] theorem State.memWrite_pc (a : Nat) (b : Byte) : (s.memWrite a b).pc = s.pc := by
  unfold State.memWrite; split <;> rfl
@[simp] theorem State.memWrite_stack (a : Nat) (b : Byte) : (s.memWrite a b).stack = s.stack := by
  unfold State.memWrite; split <;> rfl
@[simp] theorem State.memWrite_sp (a : Nat) (b : Byte) : (s.memWrite a b).sp = s.sp := by
  unfold State.memWrite; split <;> rfl
@[simp] theorem State.memWrite_dt (a : Nat) (b : Byte) : (s.memWrite a b).dt = s.dt := by
  unfold State.memWrite; split <;> rfl
@[simp] theorem State.memWrite_st (a : Nat) (b : Byte) : (s.memWrite a b).st = s.st := by
  unfold State.memWrite; split <;> rfl
@[simp] theorem State.memWrite_key (a : Nat) (b : Byte) : (s.memWrite a b).key = s.key := by
  unfold State.memWrite; split <;> rfl
@[simp] theorem State.memWrite_wait (a : Nat) (b : Byte) : (s.memWrite a b).wait = s.wait := by
  unfold State.memWrite; split <;> rfl
@[simp] theorem State.memWrite_disp (a : Nat) (b : Byte) : (s.memWrite a b).disp = s.disp := by
  unfold State.memWrite; split <;> rfl
@[simp] theorem State.memWrite_changed (a : Nat) (b : Byte) : (s.memWrite a b).changed = s.changed := by
  unfold State.memWrite; split <;> rfl
@[simp] theorem State.memWrite_err (a : Nat) (b : Byte) : (s.memWrite a b).err = s.err := by
  unfold State.memWrite; split <;> rfl
@[simp] theorem State.memWrite_cfg (a : Nat) (b : Byte) : (s.memWrite a b).cfg = s.cfg := by
  unfold State.memWrite; split <;> rfl
@[simp] theorem State.memWrite_draws (a : Nat) (b : Byte) : (s.memWrite a b).draws = s.draws := by
  unfold State.memWrite; split <;> rfl
@[simp] theorem State.memWrite_readV (a : Nat) (b : Byte) (q : Reg) : (s.memWrite a b).readV q = s.readV q := by
  simp [State.readV]
@[simp] theorem State.memWrite_readKey (a : Nat) (b : Byte) (q : Reg) : (s.memWrite a b).readKey q = s.readKey q := by
  simp [State.readKey]
@[simp] theorem State.memWrite_pixel (a : Nat) (b : Byte) (q : Fin 32) (p : Fin 64) :
    (s.memWrite a b).pixel q p = s.pixel q p := by
  simp [State.pixel]
@[simp] theorem State.memWrite_ea (a : Nat) (b : Byte) (w : Word) (k : Nat) :
    (s.memWrite a b).ea w k = s.ea w k := by
  simp [State.ea]

/-! ### Stack -/

theorem State.push_full (h : s.sp.val = 16) (w : Word) : s.push w = s := by
  simp [State.push, h]

/-- A push below capacity stores at SP and counts up. -/
theorem State.push_room (h : s.sp.val < 16) (w : Word) :
    s.push w = { s with stack := s.stack.set s.sp.val w, sp := ⟨s.sp.val + 1, Nat.succ_lt_succ h⟩ } := by
  simp [State.push, h]

theorem State.popPc_empty (h : s.sp.val = 0) : s.popPc = s := by
  simp [State.popPc, h]

/-- A pop of a stack that holds something takes PC from below SP and counts down. -/
theorem State.popPc_some (h : 0 < s.sp.val) :
    s.popPc = { s with sp := ⟨s.sp.val - 1, by omega⟩, pc := s.stack[s.sp.val - 1]'(by omega) } := by
  simp [State.popPc, h]

/-! ### Keys -/

theorem State.readKey_writeKey (k q : Reg) (p : Bool) :
    (s.writeKey k p).readKey q = if q = k then p else s.readKey q := by
  simp only [State.readKey, State.writeKey, Fin.getElem_fin, Vector.getElem_set]
  by_cases h : q = k
  · simp [h]
  · have : k.val ≠ q.val := fun e => h (Fin.ext e.symm)
    simp [h, this]

theorem State.leastKey_none : s.leastKey = none ↔ ∀ k, s.readKey k = false := by
  simp [State.leastKey, List.find?_eq_none, mem_allRegs]

/-! ### Display -/

theorem State.pixel_setPixel (row q : Fin 32) (col p : Fin 64) (b : Bool) :
    (s.setPixel row col b).pixel q p = if q = row ∧ p = col then b else s.pixel q p := by
  simp only [State.pixel, State.setPixel, Fin.getElem_fin, Vector.getElem_set]
  by_cases hq : q = row
  · subst hq
    by_cases hp : p = col
    · simp [hp]
    · have : col.val ≠ p.val := fun e => hp (Fin.ext e.symm)
      simp [hp, this]
  · have : row.val ≠ q.val := fun e => hq (Fin.ext e.symm)
    simp [hq, this]

@[simp] theorem State.pixel_clearDisplay (q : Fin 32) (p : Fin 64) : s.clearDisplay.pixel q p = false := by
  simp [State.pixel, State.clearDisplay]

/-- Two states with the same pixels have the same display. -/
theorem State.disp_ext {s t : State} (h : ∀ q p, s.pixel q p = t.pixel q p) : s.disp = t.disp := by
  apply Vector.ext; intro q hq
  apply Vector.ext; intro p hp
  exact h ⟨q, hq⟩ ⟨p, hp⟩

theorem State.anyLit_iff : s.anyLit = true ↔ ∃ q p, s.pixel q p = true := by
  simp only [State.anyLit, State.pixel, List.any_eq_true, Vector.mem_toList_iff, Vector.mem_iff_getElem]
  constructor
  · rintro ⟨r, ⟨q, hq, rfl⟩, b, ⟨p, hp, rfl⟩, hb⟩
    exact ⟨⟨q, hq⟩, ⟨p, hp⟩, hb⟩
  · rintro ⟨q, p, hb⟩
    exact ⟨_, ⟨q.val, q.isLt, rfl⟩, _, ⟨p.val, p.isLt, rfl⟩, hb⟩

end Sys2Proof.Machine
end

