-- ==== Sys2Proof/Laws/Step.lean ====
section
/-! SUPPORT. What a step can do, said once: its beginning, its fetch, and the cases of its outcome. -/

namespace Sys2Proof.Machine

variable (s : State)

/-! ### The engine state (R36) -/

theorem State.engine_running_iff : s.engine = .running ↔ s.err = none ∧ s.wait = none := by
  unfold State.engine; split <;> simp_all

theorem State.engine_halted_iff : s.engine = .halted ↔ s.err ≠ none := by
  unfold State.engine; split <;> simp_all

theorem State.engine_waiting_iff : s.engine = .waitingForKey ↔ s.err = none ∧ s.wait ≠ none := by
  unfold State.engine; split <;> simp_all

/-! ### The beginning of a step (R80) -/

theorem State.beginStep_halted (h : s.err ≠ none) : s.beginStep = none := by
  cases he : s.err with
  | none => exact absurd he h
  | some e => simp [State.beginStep, he]

theorem State.beginStep_running (he : s.err = none) (hw : s.wait = none) : s.beginStep = some s := by
  simp [State.beginStep, he, hw]

theorem State.beginStep_waiting {x : Reg} (he : s.err = none) (hw : s.wait = some x) :
    s.beginStep = s.leastKey.map (fun k => s.completeWait x k) := by
  simp [State.beginStep, he, hw]

/-- Where a step goes on to fetch, the machine is Running: it was so before, or a key-wait has just been completed. -/
theorem State.beginStep_cases {u : State} (h : s.beginStep = some u) :
    (s.err = none ∧ s.wait = none ∧ u = s) ∨
    (∃ x k, s.err = none ∧ s.wait = some x ∧ s.leastKey = some k ∧ u = s.completeWait x k) := by
  unfold State.beginStep at h
  split at h
  · cases h
  · rename_i he hw; cases h; exact .inl ⟨he, hw, rfl⟩
  · rename_i x he hw
    rw [Option.map_eq_some_iff] at h
    obtain ⟨k, hk, rfl⟩ := h
    exact .inr ⟨x, k, he, hw, hk, rfl⟩

@[simp] theorem State.completeWait_eq (x k : Reg) :
    s.completeWait x k = (s.writeV x (BitVec.ofNat 8 k.val)).writeWait none := rfl

/-- A step that goes on to fetch changed V and WAIT alone before. -/
theorem State.beginStep_eq {u : State} (h : s.beginStep = some u) : u = { s with v := u.v, wait := none } := by
  obtain ⟨_, hw, rfl⟩ | ⟨x, k, _, _, _, rfl⟩ := s.beginStep_cases h
  · rw [← hw]
  · rfl

theorem State.leastKey_eq_some {k : Reg} (hk : s.readKey k = true) (hlt : ∀ j, j < k → s.readKey j = false) :
    s.leastKey = some k := by
  have hsome : s.leastKey ≠ none := by
    rw [Ne, State.leastKey_none]; intro h; rw [h k] at hk; cases hk
  obtain ⟨j, hj⟩ := Option.ne_none_iff_exists'.1 hsome
  obtain ⟨hjk, as, bs, hsplit, has⟩ := List.find?_eq_some_iff_append.1 hj
  have hjk' : s.readKey j = true := hjk
  rcases lt_trichotomy j k with h | h | h
  · rw [hlt j h] at hjk'; cases hjk'
  · rw [hj, h]
  · exfalso
    have hkmem : k ∈ as := by
      have hmem : k ∈ as ++ j :: bs := hsplit ▸ mem_allRegs k
      have hsorted : (as ++ j :: bs).Pairwise (· < ·) := hsplit ▸ (by decide : allRegs.Pairwise (· < ·))
      rcases List.mem_append.1 hmem with hm | hm
      · exact hm
      · rcases List.mem_cons.1 hm with hm | hm
        · exact absurd hm (ne_of_lt h)
        · have := (List.pairwise_cons.1 (List.pairwise_append.1 hsorted).2.1).1 k hm
          exact absurd this (not_lt.2 h.le)
    have := has k hkmem
    simp [hk] at this

/-! ### The fetch (R55) -/

theorem State.fetchOpcode_eq : s.fetchOpcode = opcodeOfBytes (s.memRead s.pc.toNat) (s.memRead (s.ea s.pc 1)) := rfl

/-- The fetch reads PC, MEM and ADDR_SUM alone. -/
theorem State.fetchOpcode_congr {s t : State} (hpc : t.pc = s.pc) (hcfg : t.cfg = s.cfg)
    (hmem : ∀ a, t.memRead a = s.memRead a) : t.fetchOpcode = s.fetchOpcode := by
  simp [State.fetchOpcode, hpc, hmem, State.ea, hcfg]

/-! ### The outcome of a step -/

theorem step_of_none (h : s.beginStep = none) : step s = .next s := by
  simp [step, h]

theorem step_of_some {u : State} (h : s.beginStep = some u) {i : Instr} (hd : decode u.fetchOpcode = .ok i) :
    step s = exec i u.advancePc := by
  simp [step, h, hd]

theorem step_of_illegal {u : State} (h : s.beginStep = some u) {e : DecodeError}
    (hd : decode u.fetchOpcode = .error e) : step s = .next u.illegalOpcode := by
  simp [step, h, hd]

/-- Everything a step that answers a next state can have done (R80). -/
theorem step_cases {t : State} (h : step s = .next t) :
    (s.beginStep = none ∧ t = s) ∨
    (∃ u, s.beginStep = some u ∧
      ((∃ i, decode u.fetchOpcode = .ok i ∧ exec i u.advancePc = .next t) ∨
       (∃ e, decode u.fetchOpcode = .error e ∧ t = u.illegalOpcode))) := by
  cases hb : s.beginStep with
  | none => rw [step_of_none s hb] at h; cases h; exact .inl ⟨rfl, rfl⟩
  | some u =>
    refine .inr ⟨u, rfl, ?_⟩
    cases hd : decode u.fetchOpcode with
    | ok i => rw [step_of_some s hb hd] at h; exact .inl ⟨i, rfl, h⟩
    | error e => rw [step_of_illegal s hb hd] at h; cases h; exact .inr ⟨e, rfl, rfl⟩

end Sys2Proof.Machine
end

