-- ==== Sys2Proof/Laws/Frame.lean ====
section
/-! SUPPORT. Frames of the shared operations, and how frames compose. -/

namespace Sys2Proof.Machine

theorem Part.same_refl (p : Part) (s : State) : p.Same s s := by
  cases p <;> simp [Part.Same]

theorem Part.same_trans (p : Part) {s t u : State} (h : p.Same s t) (h' : p.Same t u) : p.Same s u := by
  cases p <;> simp_all [Part.Same]

theorem Frame.refl (s : State) : Frame [] [] s s := ⟨fun _ _ => rfl, fun p _ => p.same_refl s⟩

/-- A frame may be read with more registers and parts. -/
theorem Frame.mono {rs rs' : List Reg} {ps ps' : List Part} {s t : State} (h : Frame rs ps s t) (hr : rs ⊆ rs')
    (hp : ps ⊆ ps') : Frame rs' ps' s t :=
  ⟨fun r hr' => h.1 r (fun m => hr' (hr m)), fun p hp' => h.2 p (fun m => hp' (hp m))⟩

/-- One after another. -/
theorem Frame.trans {rs : List Reg} {ps : List Part} {s t u : State} (h : Frame rs ps s t) (h' : Frame rs ps t u) :
    Frame rs ps s u :=
  ⟨fun r hr => (h'.1 r hr).trans (h.1 r hr), fun p hp => p.same_trans (h.2 p hp) (h'.2 p hp)⟩

variable (s : State)

theorem State.frame_writeV (r : Reg) (b : Byte) : Frame [r] [] s (s.writeV r b) :=
  ⟨fun q hq => s.readV_writeV_ne (by simpa using hq) b, fun p _ => by cases p <;> simp [Part.Same]⟩

theorem State.frame_writeFlag (f : Bool) : Frame [vf] [] s (s.writeFlag f) := s.frame_writeV vf _

theorem State.frame_writeI (w : Word) : Frame [] [.i] s (s.writeI w) :=
  ⟨fun _ _ => rfl, fun p hp => by cases p <;> simp_all [Part.Same]⟩

theorem State.frame_writePc (w : Word) : Frame [] [.pc] s (s.writePc w) :=
  ⟨fun _ _ => rfl, fun p hp => by cases p <;> simp_all [Part.Same]⟩

theorem State.frame_advancePc : Frame [] [.pc] s s.advancePc := s.frame_writePc _

theorem State.frame_skipIf (c : Bool) : Frame [] [.pc] s (s.skipIf c) := by
  rw [State.skipIf_eq]; exact s.frame_writePc _

theorem State.frame_memWrite (a : Nat) (b : Byte) : Frame [] [.mem] s (s.memWrite a b) :=
  ⟨fun _ _ => by simp, fun p hp => by cases p <;> simp_all [Part.Same]⟩

theorem State.frame_push (w : Word) : Frame [] [.stack] s (s.push w) := by
  unfold State.push
  split
  · exact ⟨fun _ _ => rfl, fun p hp => by
      cases p <;> first | exact rfl | exact fun _ => rfl | exact fun _ _ => rfl | exact absurd (by simp) hp⟩
  · exact (Frame.refl s).mono (by simp) (by simp)

theorem State.frame_popPc : Frame [] [.pc, .stack] s s.popPc := by
  unfold State.popPc
  split
  · exact ⟨fun _ _ => rfl, fun p hp => by
      cases p <;> first | exact rfl | exact fun _ => rfl | exact fun _ _ => rfl | exact absurd (by simp) hp⟩
  · exact (Frame.refl s).mono (by simp) (by simp)

theorem State.frame_writeDT (b : Byte) : Frame [] [.dt] s (s.writeDT b) :=
  ⟨fun _ _ => rfl, fun p hp => by cases p <;> simp_all [Part.Same]⟩

theorem State.frame_writeST (b : Byte) : Frame [] [.st] s (s.writeST b) :=
  ⟨fun _ _ => rfl, fun p hp => by cases p <;> simp_all [Part.Same]⟩

theorem State.frame_writeKey (k : Reg) (b : Bool) : Frame [] [.key] s (s.writeKey k b) :=
  ⟨fun _ _ => rfl, fun p hp => by cases p <;> simp_all [Part.Same]⟩

theorem State.frame_writeWait (w : Option Reg) : Frame [] [.wait] s (s.writeWait w) :=
  ⟨fun _ _ => rfl, fun p hp => by cases p <;> simp_all [Part.Same]⟩

theorem State.frame_setPixel (row : Fin 32) (col : Fin 64) (b : Bool) : Frame [] [.disp] s (s.setPixel row col b) :=
  ⟨fun _ _ => rfl, fun p hp => by cases p <;> simp_all [Part.Same]⟩

theorem State.frame_clearDisplay : Frame [] [.disp] s s.clearDisplay :=
  ⟨fun _ _ => rfl, fun p hp => by cases p <;> simp_all [Part.Same]⟩

theorem State.frame_markChanged (f : Bool) : Frame [] [.changed] s (s.markChanged f) :=
  ⟨fun _ _ => rfl, fun p hp => by cases p <;> simp_all [Part.Same]⟩

theorem State.frame_clearChanged : Frame [] [.changed] s s.clearChanged :=
  ⟨fun _ _ => rfl, fun p hp => by cases p <;> simp_all [Part.Same]⟩

theorem State.frame_takeDraw : Frame [] [.draws] s s.takeDraw :=
  ⟨fun _ _ => rfl, fun p hp => by cases p <;> simp_all [Part.Same]⟩

theorem State.frame_raiseUnrecognizedOpcode (op fa : Word) : Frame [] [.err] s (s.raiseUnrecognizedOpcode op fa) :=
  ⟨fun _ _ => rfl, fun p hp => by cases p <;> simp_all [Part.Same]⟩

/-- A step's exception writes PC and ERR alone. -/
theorem State.frame_illegalOpcode : Frame [] [.pc, .err] s s.illegalOpcode :=
  (s.frame_advancePc.mono (by simp) (by simp)).trans ((State.frame_raiseUnrecognizedOpcode _ _ _).mono (by simp) (by simp))

/-- Completing a key-wait writes V[x] and WAIT alone. -/
theorem State.frame_completeWait (x k : Reg) : Frame [x] [.wait] s (s.completeWait x k) :=
  ((s.frame_writeV x _).mono (by simp) (by simp)).trans ((State.frame_writeWait _ _).mono (by simp) (by simp))

/-- The part of a step before the fetch writes V and WAIT alone. -/
theorem State.frame_beginStep {u : State} (h : s.beginStep = some u) : Frame allRegs [.wait] s u := by
  obtain ⟨_, _, rfl⟩ | ⟨x, k, _, _, _, rfl⟩ := s.beginStep_cases h
  · exact (Frame.refl _).mono (by simp) (by simp)
  · exact (s.frame_completeWait x k).mono (fun r _ => mem_allRegs r) (by simp)

theorem State.frame_storeBcd (b : Byte) : Frame [] [.mem] s (s.storeBcd b) :=
  ((s.frame_memWrite _ _).trans (State.frame_memWrite _ _ _)).trans (State.frame_memWrite _ _ _)

theorem State.frame_storeRegs (rs : List Reg) : Frame [] [.mem] s (s.storeRegs rs) := by
  induction rs generalizing s with
  | nil => exact (Frame.refl s).mono (by simp) (by simp)
  | cons r rs ih => exact (s.frame_memWrite _ _).trans (ih _)

theorem State.frame_loadRegs (rs : List Reg) : Frame rs [] s (s.loadRegs rs) := by
  induction rs generalizing s with
  | nil => exact Frame.refl s
  | cons r rs ih => exact ((s.frame_writeV r _).mono (by simp) (by simp)).trans ((ih _).mono (by simp) (by simp))

theorem frame_blitPixel (px py : Nat) (bit : Bool) (acc : State × Bool) :
    Frame [] [.disp, .changed] acc.1 (blitPixel px py bit acc).1 := by
  unfold blitPixel
  split
  · exact ((State.frame_setPixel _ _ _ _).mono (by simp) (by simp)).trans
      ((State.frame_markChanged _ _).mono (by simp) (by simp))
  · exact (Frame.refl _).mono (by simp) (by simp)

theorem frame_foldl {α : Type} {rs : List Reg} {ps : List Part} (f : State × Bool → α → State × Bool)
    (hf : ∀ acc a, Frame rs ps acc.1 (f acc a).1) (l : List α) (acc : State × Bool) :
    Frame rs ps acc.1 (l.foldl f acc).1 := by
  induction l generalizing acc with
  | nil => exact (Frame.refl _).mono (by simp) (by simp)
  | cons a l ih => exact (hf acc a).trans (ih _)

theorem frame_blitRow (sx py : Nat) (b : Byte) (acc : State × Bool) :
    Frame [] [.disp, .changed] acc.1 (blitRow sx py b acc).1 :=
  frame_foldl _ (fun _ _ => frame_blitPixel _ _ _ _) _ _

theorem frame_blitRows (sx sy n : Nat) (acc : State × Bool) :
    Frame [] [.disp, .changed] acc.1 (blitRows sx sy n acc).1 :=
  frame_foldl _ (fun _ _ => frame_blitRow _ _ _ _) _ _

theorem State.frame_blit (x y : Reg) (n : Nat) : Frame [] [.disp, .changed] s (s.blit x y n).1 :=
  frame_blitRows _ _ _ _

end Sys2Proof.Machine
end

