-- ==== Sys2Proof/Laws/Blit.lean ====
section
/-! SUPPORT. What the blit of Dxyn does, pixel by pixel: one lemma for each of its loops. -/

namespace Sys2Proof.Machine

/-- `acc` is what the blit has made of `s` when it has flipped exactly the pixels of `D`. -/
structure Blitted (s : State) (D : Fin 32 → Fin 64 → Prop) (acc : State × Bool) : Prop where
  pixels : ∀ r c, acc.1.pixel r c ≠ s.pixel r c ↔ D r c
  collided : acc.2 = true ↔ ∃ r c, D r c ∧ s.pixel r c = true
  changed : acc.1.changed = true ↔ s.changed = true ∨ ∃ r c, D r c

theorem Blitted.start (s : State) : Blitted s (fun _ _ => False) (s, false) :=
  ⟨by simp, by simp, by simp⟩

theorem Blitted.congr {s : State} {D D' : Fin 32 → Fin 64 → Prop} {acc : State × Bool} (h : Blitted s D acc)
    (hD : ∀ r c, D r c ↔ D' r c) : Blitted s D' acc := by
  have : D = D' := funext fun r => funext fun c => propext (hD r c)
  exact this ▸ h

/-- One pixel, not flipped before: it is flipped when it lies on the grid and the sprite bit is 1. -/
theorem Blitted.pixel {s : State} {D : Fin 32 → Fin 64 → Prop} {acc : State × Bool} (h : Blitted s D acc)
    (px py : Nat) (bit : Bool) (hnew : ∀ r c, r.val = py → c.val = px → ¬ D r c) :
    Blitted s (fun r c => D r c ∨ (r.val = py ∧ c.val = px ∧ bit = true)) (blitPixel px py bit acc) := by
  by_cases hg : px < 64 ∧ py < 32
  · have hold : acc.1.pixel ⟨py, hg.2⟩ ⟨px, hg.1⟩ = s.pixel ⟨py, hg.2⟩ ⟨px, hg.1⟩ := by
      by_contra hne
      exact hnew ⟨py, hg.2⟩ ⟨px, hg.1⟩ rfl rfl ((h.pixels _ _).1 hne)
    have hat : ∀ (r : Fin 32) (c : Fin 64), (r.val = py ∧ c.val = px) ↔ (r = ⟨py, hg.2⟩ ∧ c = ⟨px, hg.1⟩) := by
      intro r c; simp [Fin.ext_iff]
    simp only [blitPixel, hg, and_self, dite_true]
    cases bit with
    | false =>
      have hsame : ∀ b : Bool, ((b != (b ^^ false)) = false) ∧ collides b (b ^^ false) = false := by decide
      refine ⟨fun r c => ?_, ?_, ?_⟩
      · simp only [State.markChanged_pixel, State.pixel_setPixel, Bool.xor_false, Bool.false_eq_true, and_false, or_false,
          ← h.pixels]
        split
        · rename_i hrc; rw [hrc.1, hrc.2]
        · rfl
      · simp only [(hsame _).2, Bool.or_false, h.collided, Bool.false_eq_true, and_false, or_false]
      · simp only [State.markChanged_changed, State.setPixel_changed, (hsame _).1, Bool.or_false, h.changed,
          Bool.false_eq_true, and_false, or_false]
    | true =>
      have hflip : ∀ b : Bool, ((b != (b ^^ true)) = true) ∧ collides b (b ^^ true) = b := by decide
      refine ⟨fun r c => ?_, ?_, ?_⟩
      · simp only [State.markChanged_pixel, State.pixel_setPixel, and_true, hat r c]
        by_cases hrc : r = ⟨py, hg.2⟩ ∧ c = ⟨px, hg.1⟩
        · simp [hrc, hold]
        · simp [hrc, h.pixels]
      · simp only [(hflip _).2, Bool.or_eq_true, h.collided, hold, and_true, hat]
        constructor
        · rintro (⟨r, c, hD, hs⟩ | hs)
          · exact ⟨r, c, .inl hD, hs⟩
          · exact ⟨_, _, .inr ⟨rfl, rfl⟩, hs⟩
        · rintro ⟨r, c, hD | ⟨rfl, rfl⟩, hs⟩
          · exact .inl ⟨r, c, hD, hs⟩
          · exact .inr hs
      · simp only [State.markChanged_changed, State.setPixel_changed, (hflip _).1, Bool.or_true, and_true, hat, true_iff]
        exact .inr ⟨_, _, .inr ⟨rfl, rfl⟩⟩
  · simp only [blitPixel, hg, dite_false]
    refine h.congr fun r c => ⟨.inl, ?_⟩
    rintro (hD | ⟨hr, hc, _⟩)
    · exact hD
    · exact absurd ⟨hc ▸ c.isLt, hr ▸ r.isLt⟩ hg

/-- The first `k` columns of one sprite row, none of whose pixels was flipped before. -/
theorem Blitted.cols {s : State} {D : Fin 32 → Fin 64 → Prop} {acc : State × Bool} (h : Blitted s D acc)
    (sx py : Nat) (b : Byte) (hnew : ∀ r c, r.val = py → ¬ D r c) (k : Nat) :
    Blitted s (fun r c => D r c ∨ (r.val = py ∧ ∃ j, j < k ∧ c.val = sx + j ∧ spriteBit b j = true))
      ((List.range k).foldl (fun acc col => blitPixel (sx + col) py (spriteBit b col) acc) acc) := by
  induction k with
  | zero => exact h.congr (by simp)
  | succ k ih =>
    rw [List.range_succ, List.foldl_append]
    refine (ih.pixel (sx + k) py (spriteBit b k) ?_).congr fun r c => ?_
    · rintro r c hr hc (hD | ⟨_, j, hj, hc', _⟩)
      · exact hnew r c hr hD
      · omega
    · constructor
      · rintro ((hD | ⟨hr, j, hj, hc, hb⟩) | ⟨hr, hc, hb⟩)
        · exact .inl hD
        · exact .inr ⟨hr, j, by omega, hc, hb⟩
        · exact .inr ⟨hr, k, by omega, hc, hb⟩
      · rintro (hD | ⟨hr, j, hj, hc, hb⟩)
        · exact .inl (.inl hD)
        · rcases Nat.lt_succ_iff_lt_or_eq.1 hj with hj | rfl
          · exact .inl (.inr ⟨hr, j, hj, hc, hb⟩)
          · exact .inr ⟨hr, hc, hb⟩

/-- One sprite row. -/
theorem Blitted.row {s : State} {D : Fin 32 → Fin 64 → Prop} {acc : State × Bool} (h : Blitted s D acc)
    (sx py : Nat) (b : Byte) (hnew : ∀ r c, r.val = py → ¬ D r c) :
    Blitted s (fun r c => D r c ∨ (r.val = py ∧ ∃ j, j < 8 ∧ c.val = sx + j ∧ spriteBit b j = true))
      (blitRow sx py b acc) :=
  h.cols sx py b hnew 8

/-- The rows of the sprite: row `k` is the byte at ea(I, k), which the blit itself leaves as it is. -/
theorem Blitted.rows (s : State) (sx sy n : Nat) :
    Blitted s (fun r c => ∃ k, k < n ∧ r.val = sy + k ∧ ∃ j, j < 8 ∧ c.val = sx + j ∧
      spriteBit (s.memRead (s.ea s.i k)) j = true) (blitRows sx sy n (s, false)) := by
  unfold blitRows
  induction n with
  | zero => exact (Blitted.start s).congr (by simp)
  | succ n ih =>
    have hf := frame_blitRows sx sy n (s, false)
    have hmem := hf.2 .mem (by simp)
    have hi : _ = _ := hf.2 .i (by simp)
    have hcfg : _ = _ := hf.2 .cfg (by simp)
    have hbyte : (blitRows sx sy n (s, false)).1.memRead
        ((blitRows sx sy n (s, false)).1.ea (blitRows sx sy n (s, false)).1.i n) = s.memRead (s.ea s.i n) := by
      rw [hmem, hi, State.ea, State.ea, hcfg]
    have hrow := ih.row sx (sy + n) (s.memRead (s.ea s.i n)) (by rintro r c hr ⟨k, hk, hr', _⟩; omega)
    rw [← hbyte] at hrow
    rw [List.range_succ, List.foldl_append]
    refine Blitted.congr hrow fun r c => ?_
    rw [hbyte]
    constructor
    · rintro (⟨k, hk, h⟩ | ⟨hr, h⟩)
      · exact ⟨k, by omega, h⟩
      · exact ⟨n, by omega, hr, h⟩
    · rintro ⟨k, hk, hr, h⟩
      rcases Nat.lt_succ_iff_lt_or_eq.1 hk with hk | rfl
      · exact .inl ⟨k, hk, hr, h⟩
      · exact .inr ⟨hr, h⟩

/-- The blit flips exactly the pixels the sprite covers. -/
theorem State.blitted_blit (s : State) (x y : Reg) (n : Nat) : Blitted s (s.SpriteCovers x y n) (s.blit x y n) := by
  refine (Blitted.rows s _ _ n).congr fun r c => ?_
  unfold State.SpriteCovers spriteBit
  constructor
  · rintro ⟨k, hk, hr, j, hj, hc, hb⟩
    refine ⟨by omega, by omega, by omega, by omega, ?_⟩
    rw [hr, hc, Nat.add_sub_cancel_left, Nat.add_sub_cancel_left]; exact hb
  · rintro ⟨h1, h2, h3, h4, hb⟩
    exact ⟨r.val - (s.readV y).toNat, by omega, by omega, c.val - (s.readV x).toNat, by omega, by omega, hb⟩

end Sys2Proof.Machine
end

