-- ==== Sys2Proof/Laws/PerInstr.lean ====
section
/-! SUPPORT. What is said of every instruction, one lemma per constructor: its encoding has the fixed bits that its row of
spec/opcode_table.json gives (`mask` and `match`). -/

namespace Sys2Proof.Laws

/-! ### A word of each format under a mask of that format -/

theorem wordNNN_and (a a' : Nibble) (n n' : Addr12) : wordNNN a n &&& wordNNN a' n' = wordNNN (a &&& a') (n &&& n') :=
  BitVec.and_append

theorem wordXNN_and (a a' : Nibble) (x x' : Reg) (n n' : Byte) :
    wordXNN a x n &&& wordXNN a' x' n' = wordXNN (a &&& a') (regOf (regBits x &&& regBits x')) (n &&& n') :=
  (BitVec.and_append (x₁ := a ++ regBits x) (x₂ := a' ++ regBits x')).trans
    (congrArg (· ++ (n &&& n')) BitVec.and_append)

theorem wordXYN_and (a a' : Nibble) (x x' y y' : Reg) (n n' : Nibble) :
    wordXYN a x y n &&& wordXYN a' x' y' n' =
      wordXYN (a &&& a') (regOf (regBits x &&& regBits x')) (regOf (regBits y &&& regBits y')) (n &&& n') :=
  (BitVec.and_append (x₁ := a ++ regBits x ++ regBits y) (x₂ := a' ++ regBits x' ++ regBits y')).trans
    (congrArg (· ++ (n &&& n')) ((BitVec.and_append (x₁ := a ++ regBits x) (x₂ := a' ++ regBits x')).trans
      (congrArg (· ++ (regBits y &&& regBits y')) BitVec.and_append)))

theorem nibble_and_mask (b : Nibble) : b &&& 0xF#4 = b := BitVec.and_allOnes

theorem byte_and_mask (b : Byte) : b &&& 0xFF#8 = b := BitVec.and_allOnes

/-- Under the mask 0xF000, only the major opcode of a word of format `NNN` is left. -/
theorem wordNNN_fixed (a : Nibble) (n : Addr12) : wordNNN a n &&& 0xF000 = wordNNN a 0#12 := by
  rw [show (0xF000 : Word) = wordNNN 0xF#4 0#12 by decide, wordNNN_and, nibble_and_mask, BitVec.and_zero]

/-- Under the mask 0xF000, only the major opcode of a word of format `XNN` is left. -/
theorem wordXNN_fixed (a : Nibble) (x : Reg) (n : Byte) : wordXNN a x n &&& 0xF000 = wordXNN a (regOf 0#4) 0#8 := by
  rw [show (0xF000 : Word) = wordXNN 0xF#4 (regOf 0#4) 0#8 by decide, wordXNN_and, regBits_regOf, nibble_and_mask,
    BitVec.and_zero, BitVec.and_zero]

/-- Under the mask 0xF0FF, the major opcode and the selector of a word of format `XSS` are left. -/
theorem wordXSS_fixed (a : Nibble) (x : Reg) (n : Byte) : wordXNN a x n &&& 0xF0FF = wordXNN a (regOf 0#4) n := by
  rw [show (0xF0FF : Word) = wordXNN 0xF#4 (regOf 0#4) 0xFF#8 by decide, wordXNN_and, regBits_regOf, nibble_and_mask,
    byte_and_mask, BitVec.and_zero]

/-- Under the mask 0xF00F, the major opcode and the low nibble of a word of format `XY0` or `XYS` are left. -/
theorem wordXYS_fixed (a : Nibble) (x y : Reg) (n : Nibble) :
    wordXYN a x y n &&& 0xF00F = wordXYN a (regOf 0#4) (regOf 0#4) n := by
  rw [show (0xF00F : Word) = wordXYN 0xF#4 (regOf 0#4) (regOf 0#4) 0xF#4 by decide, wordXYN_and, regBits_regOf,
    nibble_and_mask, nibble_and_mask, BitVec.and_zero, BitVec.and_zero]

/-- Under the mask 0xF000, only the major opcode of a word of format `XYN` is left. -/
theorem wordXYN_fixed (a : Nibble) (x y : Reg) (n : Nibble) :
    wordXYN a x y n &&& 0xF000 = wordXYN a (regOf 0#4) (regOf 0#4) 0#4 := by
  rw [show (0xF000 : Word) = wordXYN 0xF#4 (regOf 0#4) (regOf 0#4) 0#4 by decide, wordXYN_and, regBits_regOf,
    nibble_and_mask, BitVec.and_zero, BitVec.and_zero, BitVec.and_zero]

/-! ### The rows -/

/-- The `mask` of an instruction's row. -/
def tableMask : Instr → Word
  | .cls | .ret => 0xFFFF
  | .jp _ | .call _ | .ldI _ | .jpV0 _ => 0xF000
  | .seImm _ _ | .sneImm _ _ | .ldImm _ _ | .addImm _ _ | .rnd _ _ => 0xF000
  | .seReg _ _ | .sneReg _ _ => 0xF00F
  | .ldReg _ _ | .orReg _ _ | .andReg _ _ | .xorReg _ _ | .addReg _ _ | .subReg _ _ | .shr _ _ | .subn _ _
  | .shl _ _ => 0xF00F
  | .drw _ _ _ => 0xF000
  | .skp _ | .sknp _ => 0xF0FF
  | .ldVxDT _ | .ldVxK _ | .ldDTVx _ | .ldSTVx _ | .addI _ | .ldF _ | .ldB _ | .stRegs _ | .ldRegs _ => 0xF0FF

/-- The `match` of an instruction's row. -/
def tableMatch : Instr → Word
  | .cls => 0x00E0
  | .ret => 0x00EE
  | .jp _ => 0x1000
  | .call _ => 0x2000
  | .seImm _ _ => 0x3000
  | .sneImm _ _ => 0x4000
  | .seReg _ _ => 0x5000
  | .ldImm _ _ => 0x6000
  | .addImm _ _ => 0x7000
  | .ldReg _ _ => 0x8000
  | .orReg _ _ => 0x8001
  | .andReg _ _ => 0x8002
  | .xorReg _ _ => 0x8003
  | .addReg _ _ => 0x8004
  | .subReg _ _ => 0x8005
  | .shr _ _ => 0x8006
  | .subn _ _ => 0x8007
  | .shl _ _ => 0x800E
  | .sneReg _ _ => 0x9000
  | .ldI _ => 0xA000
  | .jpV0 _ => 0xB000
  | .rnd _ _ => 0xC000
  | .drw _ _ _ => 0xD000
  | .skp _ => 0xE09E
  | .sknp _ => 0xE0A1
  | .ldVxDT _ => 0xF007
  | .ldVxK _ => 0xF00A
  | .ldDTVx _ => 0xF015
  | .ldSTVx _ => 0xF018
  | .addI _ => 0xF01E
  | .ldF _ => 0xF029
  | .ldB _ => 0xF033
  | .stRegs _ => 0xF055
  | .ldRegs _ => 0xF065

/-- The encoding of the instruction has the fixed bits of its row. -/
def TableRow.Statement (i : Instr) : Prop := encode i &&& tableMask i = tableMatch i

theorem TableRow.cls : TableRow.Statement .cls := by unfold TableRow.Statement; decide
theorem TableRow.ret : TableRow.Statement .ret := by unfold TableRow.Statement; decide
theorem TableRow.jp (nnn : Addr12) : TableRow.Statement (.jp nnn) := wordNNN_fixed _ _
theorem TableRow.call (nnn : Addr12) : TableRow.Statement (.call nnn) := wordNNN_fixed _ _
theorem TableRow.seImm (x : Reg) (nn : Byte) : TableRow.Statement (.seImm x nn) := wordXNN_fixed _ _ _
theorem TableRow.sneImm (x : Reg) (nn : Byte) : TableRow.Statement (.sneImm x nn) := wordXNN_fixed _ _ _
theorem TableRow.seReg (x : Reg) (y : Reg) : TableRow.Statement (.seReg x y) := wordXYS_fixed _ _ _ _
theorem TableRow.ldImm (x : Reg) (nn : Byte) : TableRow.Statement (.ldImm x nn) := wordXNN_fixed _ _ _
theorem TableRow.addImm (x : Reg) (nn : Byte) : TableRow.Statement (.addImm x nn) := wordXNN_fixed _ _ _
theorem TableRow.ldReg (x : Reg) (y : Reg) : TableRow.Statement (.ldReg x y) := wordXYS_fixed _ _ _ _
theorem TableRow.orReg (x : Reg) (y : Reg) : TableRow.Statement (.orReg x y) := wordXYS_fixed _ _ _ _
theorem TableRow.andReg (x : Reg) (y : Reg) : TableRow.Statement (.andReg x y) := wordXYS_fixed _ _ _ _
theorem TableRow.xorReg (x : Reg) (y : Reg) : TableRow.Statement (.xorReg x y) := wordXYS_fixed _ _ _ _
theorem TableRow.addReg (x : Reg) (y : Reg) : TableRow.Statement (.addReg x y) := wordXYS_fixed _ _ _ _
theorem TableRow.subReg (x : Reg) (y : Reg) : TableRow.Statement (.subReg x y) := wordXYS_fixed _ _ _ _
theorem TableRow.shr (x : Reg) (y : Reg) : TableRow.Statement (.shr x y) := wordXYS_fixed _ _ _ _
theorem TableRow.subn (x : Reg) (y : Reg) : TableRow.Statement (.subn x y) := wordXYS_fixed _ _ _ _
theorem TableRow.shl (x : Reg) (y : Reg) : TableRow.Statement (.shl x y) := wordXYS_fixed _ _ _ _
theorem TableRow.sneReg (x : Reg) (y : Reg) : TableRow.Statement (.sneReg x y) := wordXYS_fixed _ _ _ _
theorem TableRow.ldI (nnn : Addr12) : TableRow.Statement (.ldI nnn) := wordNNN_fixed _ _
theorem TableRow.jpV0 (nnn : Addr12) : TableRow.Statement (.jpV0 nnn) := wordNNN_fixed _ _
theorem TableRow.rnd (x : Reg) (nn : Byte) : TableRow.Statement (.rnd x nn) := wordXNN_fixed _ _ _
theorem TableRow.drw (x : Reg) (y : Reg) (n : Nat) : TableRow.Statement (.drw x y n) := wordXYN_fixed _ _ _ _
theorem TableRow.skp (x : Reg) : TableRow.Statement (.skp x) := wordXSS_fixed _ _ _
theorem TableRow.sknp (x : Reg) : TableRow.Statement (.sknp x) := wordXSS_fixed _ _ _
theorem TableRow.ldVxDT (x : Reg) : TableRow.Statement (.ldVxDT x) := wordXSS_fixed _ _ _
theorem TableRow.ldVxK (x : Reg) : TableRow.Statement (.ldVxK x) := wordXSS_fixed _ _ _
theorem TableRow.ldDTVx (x : Reg) : TableRow.Statement (.ldDTVx x) := wordXSS_fixed _ _ _
theorem TableRow.ldSTVx (x : Reg) : TableRow.Statement (.ldSTVx x) := wordXSS_fixed _ _ _
theorem TableRow.addI (x : Reg) : TableRow.Statement (.addI x) := wordXSS_fixed _ _ _
theorem TableRow.ldF (x : Reg) : TableRow.Statement (.ldF x) := wordXSS_fixed _ _ _
theorem TableRow.ldB (x : Reg) : TableRow.Statement (.ldB x) := wordXSS_fixed _ _ _
theorem TableRow.stRegs (x : Reg) : TableRow.Statement (.stRegs x) := wordXSS_fixed _ _ _
theorem TableRow.ldRegs (x : Reg) : TableRow.Statement (.ldRegs x) := wordXSS_fixed _ _ _

end Sys2Proof.Laws
end

