-- ==== Sys2Proof/Laws/Transfer.lean ====
section
/-! SUPPORT. What the memory transfers (Fx33, Fx55, Fx65, LOAD) leave in memory and registers, and that they keep the
canonical form of memory. -/

namespace Sys2Proof.Machine

variable (s : State)

/-! ### Fx55 -/

theorem State.storeRegs_cons (r : Reg) (rs : List Reg) :
    s.storeRegs (r :: rs) = (s.memWrite (s.ea s.i r.val) (s.readV r)).storeRegs rs := rfl

/-- An address that no stored register's is keeps its byte. -/
theorem State.memRead_storeRegs_other (rs : List Reg) (a : Nat) (h : ∀ k ∈ rs, a ≠ s.ea s.i k.val) :
    (s.storeRegs rs).memRead a = s.memRead a := by
  induction rs generalizing s with
  | nil => rfl
  | cons r rs ih =>
    rw [State.storeRegs_cons, ih _ (fun k hk => by simpa using h k (by simp [hk])), State.memRead_memWrite]
    simp [h r (by simp)]

/-- Inside memory, each stored register stands at its address. -/
theorem State.memRead_storeRegs_at {rs : List Reg} (hd : rs.Nodup) {k : Reg} (hk : k ∈ rs)
    (ha : s.ea s.i k.val < memSize) : (s.storeRegs rs).memRead (s.ea s.i k.val) = s.readV k := by
  induction rs generalizing s with
  | nil => cases hk
  | cons r rs ih =>
    rw [State.storeRegs_cons]
    obtain ⟨hr, hd⟩ := List.nodup_cons.1 hd
    rcases List.mem_cons.1 hk with rfl | hk
    · rw [State.memRead_storeRegs_other, State.memRead_memWrite]
      · simp [ha]
      · intro j hj heq
        simp only [State.memWrite_i, State.memWrite_ea] at heq
        have := s.ea_inj s.i (by omega) (by omega) heq
        exact hr (Fin.ext this ▸ hj)
    · have := ih (s.memWrite (s.ea s.i r.val) (s.readV r)) hd hk (by simpa using ha)
      simpa using this

theorem State.memWf_storeRegs (h : s.memWf = true) (rs : List Reg) : (s.storeRegs rs).memWf = true := by
  induction rs generalizing s with
  | nil => exact h
  | cons r rs ih => exact ih _ (s.memWf_memWrite h _ _)

/-! ### Fx33 -/

theorem State.memWf_storeBcd (h : s.memWf = true) (b : Byte) : (s.storeBcd b).memWf = true :=
  State.memWf_memWrite _ (State.memWf_memWrite _ (s.memWf_memWrite h _ _) _ _) _ _

/-- Each of the three digits stands at its address, where that lies inside memory, and no other byte changes. -/
theorem State.memRead_storeBcd (b : Byte) (a : Nat) :
    (s.storeBcd b).memRead a =
      if a = s.ea s.i 0 ∧ a < memSize then bcdHundreds b
      else if a = s.ea s.i 1 ∧ a < memSize then bcdTens b
      else if a = s.ea s.i 2 ∧ a < memSize then bcdOnes b
      else s.memRead a := by
  have h01 : s.ea s.i 0 ≠ s.ea s.i 1 := fun h => absurd (s.ea_inj s.i (by omega) (by omega) h) (by decide)
  have h02 : s.ea s.i 0 ≠ s.ea s.i 2 := fun h => absurd (s.ea_inj s.i (by omega) (by omega) h) (by decide)
  have h12 : s.ea s.i 1 ≠ s.ea s.i 2 := fun h => absurd (s.ea_inj s.i (by omega) (by omega) h) (by decide)
  simp only [State.storeBcd, State.memRead_memWrite]
  by_cases h0 : a = s.ea s.i 0
  · subst h0; simp [h01, h02]
  · by_cases h1 : a = s.ea s.i 1
    · subst h1; simp [h01.symm, h12]
    · by_cases h2 : a = s.ea s.i 2
      · subst h2; simp [h02.symm, h12.symm]
      · simp [h0, h1, h2]

/-! ### Fx65 -/

theorem State.loadRegs_cons (r : Reg) (rs : List Reg) :
    s.loadRegs (r :: rs) = (s.writeV r (s.memRead (s.ea s.i r.val))).loadRegs rs := rfl

/-- Each loaded register holds the byte at its address. -/
theorem State.readV_loadRegs_at {rs : List Reg} (hd : rs.Nodup) {k : Reg} (hk : k ∈ rs) :
    (s.loadRegs rs).readV k = s.memRead (s.ea s.i k.val) := by
  induction rs generalizing s with
  | nil => cases hk
  | cons r rs ih =>
    rw [State.loadRegs_cons]
    obtain ⟨hr, hd⟩ := List.nodup_cons.1 hd
    rcases List.mem_cons.1 hk with rfl | hk
    · rw [(State.frame_loadRegs _ rs).1 k hr]; simp
    · rw [ih _ hd hk]; simp

/-! ### LOAD -/

theorem State.frame_loadFrom (a : Nat) (bs : List Byte) : Frame [] [.mem] s (s.loadFrom a bs) := by
  induction bs generalizing s a with
  | nil => exact (Frame.refl s).mono (by simp) (by simp)
  | cons b bs ih => exact (s.frame_memWrite _ _).trans (ih _ _)

/-- Addresses outside the load keep their bytes. -/
theorem State.memRead_loadFrom_other (a : Nat) (bs : List Byte) (c : Nat) (h : c < a ∨ a + bs.length ≤ c) :
    (s.loadFrom a bs).memRead c = s.memRead c := by
  induction bs generalizing s a with
  | nil => rfl
  | cons b bs ih =>
    rw [List.length_cons] at h
    rw [State.loadFrom, ih _ _ (by omega), State.memRead_memWrite]
    have : c ≠ a := by omega
    simp [this]

/-- Inside memory, each byte loaded stands at its address. -/
theorem State.memRead_loadFrom_at (a : Nat) (bs : List Byte) (k : Nat) (hk : k < bs.length) (ha : a + k < memSize) :
    (s.loadFrom a bs).memRead (a + k) = bs[k] := by
  induction bs generalizing s a k with
  | nil => simp at hk
  | cons b bs ih =>
    rw [State.loadFrom]
    cases k with
    | zero =>
      rw [State.memRead_loadFrom_other _ _ _ _ (by omega), State.memRead_memWrite]
      simp only [Nat.add_zero] at ha
      simp [ha]
    | succ k =>
      have := ih (s.memWrite a b) (a + 1) k (by simpa using hk) (by omega)
      rw [show a + (k + 1) = a + 1 + k by omega, this]; rfl

theorem State.memWf_loadFrom (h : s.memWf = true) (a : Nat) (bs : List Byte) : (s.loadFrom a bs).memWf = true := by
  induction bs generalizing s a with
  | nil => exact h
  | cons b bs ih => exact ih _ (s.memWf_memWrite h _ _) _

/-! ### Placing an instruction -/

theorem State.pcInMemory_readyToFetch : s.readyToFetch.pc.toNat + 1 < memSize := by
  unfold State.readyToFetch
  split
  · rename_i h; exact of_decide_eq_true h
  · exact (by decide : (0x200#16).toNat + 1 < memSize)

theorem State.readyToFetch_running : s.readyToFetch.err = none ∧ s.readyToFetch.wait = none := by
  unfold State.readyToFetch; split <;> exact ⟨rfl, rfl⟩

/-- The opcode placed is the one the next fetch reads. -/
theorem State.fetchOpcode_placeOpcode (op : Word) : (s.placeOpcode op).fetchOpcode = op := by
  have hpc := s.pcInMemory_readyToFetch
  unfold memSize at hpc
  simp only [State.placeOpcode, State.fetchOpcode, State.memWrite_pc, State.memWrite_ea]
  rw [State.ea_of_lt _ (by omega), State.memRead_memWrite, State.memRead_memWrite, State.memRead_memWrite]
  have h1 : s.readyToFetch.pc.toNat < memSize := by unfold memSize; omega
  have h2 : s.readyToFetch.pc.toNat + 1 < memSize := by unfold memSize; omega
  simp [h1, h2]

theorem State.beginStep_placeOpcode (op : Word) : (s.placeOpcode op).beginStep = some (s.placeOpcode op) :=
  State.beginStep_running _ (by simp [State.placeOpcode, s.readyToFetch_running])
    (by simp [State.placeOpcode, s.readyToFetch_running])

end Sys2Proof.Machine
end

