-- ==== Sys2Proof/Tests/Slice0.lean ====
section
/-! SUPPORT. The tests: the well-formedness smoke, decoding of words written out from the spec's encodings, one step per
instruction on the vectors of 95_test_vectors.md, and, for each obligation with hypotheses, a state that meets them. A
test's comment names the vector or the rule its expected result comes from. -/

namespace Sys2Proof.Tests

open Sys2Proof.Machine

/-! ### Well-formedness -/

theorem test_wf_refuses_sixteen_rows : (Instr.drw 0 0 16).wellFormed = false := by decide
theorem test_wf_takes_fifteen_rows : (Instr.drw 15 15 15).wellFormed = true := by decide

/-! ### Decoding: each word is the rule's encoding line with its fields filled in -/

theorem test_decode_cls : decode 0b0000000011100000#16 = .ok .cls := by decide
theorem test_decode_ret : decode 0b0000000011101110#16 = .ok .ret := by decide
theorem test_decode_jp : decode 0b0001101010111100#16 = .ok (.jp 0xABC) := by decide
theorem test_decode_call : decode 0b0010001000010000#16 = .ok (.call 0x210) := by decide
theorem test_decode_seImm : decode 0b0011001100010010#16 = .ok (.seImm 3 0x12) := by decide
theorem test_decode_sneImm : decode 0b0100001100010010#16 = .ok (.sneImm 3 0x12) := by decide
theorem test_decode_seReg : decode 0b0101000100100000#16 = .ok (.seReg 1 2) := by decide
theorem test_decode_ldImm : decode 0b0110101000000101#16 = .ok (.ldImm 10 0x05) := by decide
theorem test_decode_addImm : decode 0b0111111100000001#16 = .ok (.addImm 15 0x01) := by decide
theorem test_decode_ldReg : decode 0b1000000100100000#16 = .ok (.ldReg 1 2) := by decide
theorem test_decode_orReg : decode 0b1000000100100001#16 = .ok (.orReg 1 2) := by decide
theorem test_decode_andReg : decode 0b1000000100100010#16 = .ok (.andReg 1 2) := by decide
theorem test_decode_xorReg : decode 0b1000000100100011#16 = .ok (.xorReg 1 2) := by decide
theorem test_decode_addReg : decode 0b1000000100100100#16 = .ok (.addReg 1 2) := by decide
theorem test_decode_subReg : decode 0b1000000100100101#16 = .ok (.subReg 1 2) := by decide
theorem test_decode_shr : decode 0b1000000100100110#16 = .ok (.shr 1 2) := by decide
theorem test_decode_subn : decode 0b1000000100100111#16 = .ok (.subn 1 2) := by decide
theorem test_decode_shl : decode 0b1000000100101110#16 = .ok (.shl 1 2) := by decide
theorem test_decode_sneReg : decode 0b1001000100100000#16 = .ok (.sneReg 1 2) := by decide
theorem test_decode_ldI : decode 0b1010001100000000#16 = .ok (.ldI 0x300) := by decide
theorem test_decode_jpV0 : decode 0b1011111111111111#16 = .ok (.jpV0 0xFFF) := by decide
theorem test_decode_rnd : decode 0b1100000100001111#16 = .ok (.rnd 1 0x0F) := by decide
theorem test_decode_drw : decode 0b1101000000010010#16 = .ok (.drw 0 1 2) := by decide
theorem test_decode_skp : decode 0b1110010110011110#16 = .ok (.skp 5) := by decide
theorem test_decode_sknp : decode 0b1110010110100001#16 = .ok (.sknp 5) := by decide
theorem test_decode_ldVxDT : decode 0b1111001100000111#16 = .ok (.ldVxDT 3) := by decide
theorem test_decode_ldVxK : decode 0b1111001100001010#16 = .ok (.ldVxK 3) := by decide
theorem test_decode_ldDTVx : decode 0b1111001100010101#16 = .ok (.ldDTVx 3) := by decide
theorem test_decode_ldSTVx : decode 0b1111001100011000#16 = .ok (.ldSTVx 3) := by decide
theorem test_decode_addI : decode 0b1111001000011110#16 = .ok (.addI 2) := by decide
theorem test_decode_ldF : decode 0b1111010000101001#16 = .ok (.ldF 4) := by decide
theorem test_decode_ldB : decode 0b1111000000110011#16 = .ok (.ldB 0) := by decide
theorem test_decode_stRegs : decode 0b1111000101010101#16 = .ok (.stRegs 1) := by decide
theorem test_decode_ldRegs : decode 0b1111001001100101#16 = .ok (.ldRegs 2) := by decide

/-! ### Illegal opcodes: E1, E3, E4, E5, E6, E7, E8 and the edges of R90's rows -/

theorem test_illegal_sys : decode 0x0000 = .error .notClsOrRet ∧ decode 0x0123 = .error .notClsOrRet ∧
    decode 0x00FF = .error .notClsOrRet ∧ decode 0x0FFF = .error .notClsOrRet := by decide
theorem test_illegal_skips : decode 0x5121 = .error .seRegNibble ∧ decode 0x512F = .error .seRegNibble ∧
    decode 0x9121 = .error .sneRegNibble := by decide
theorem test_illegal_alu : decode 0x8128 = .error .aluSelector ∧ decode 0x812D = .error .aluSelector ∧
    decode 0x812F = .error .aluSelector := by decide
theorem test_illegal_key_misc : decode 0xE19F = .error .keySelector ∧ decode 0xF100 = .error .miscSelector ∧
    decode 0xFFFF = .error .miscSelector := by decide
theorem test_decode_truncated : decodeBytes [] = .error .truncated ∧ decodeBytes [0x60] = .error .truncated := by decide
/-- R55: the first byte is the high half. -/
theorem test_decodeBytes_big_endian : decodeBytes [0x12, 0x00, 0xFF] = .ok (.jp 0x200, [0xFF]) := by decide
theorem test_decodeTableWord : decodeTableWord 16 0xF265 = some (.ldRegs 2) ∧ decodeTableWord 16 0x8128 = none := by decide

/-! ### One step -/

/-- What a next state shows. -/
def seen {α : Type} (o : Host.Outcome State Fault Refusal) (f : State → α) : Option α :=
  match o with
  | .next t => some (f t)
  | _ => none

/-- One step on the opcode `w`, placed at PC, shown by `f`. -/
def ran {α : Type} (s : State) (w : Nat) (f : State → α) : Option α := seen (step (s.withFetchWord 16 w)) f

/-- The reset state with V1, V2 and VF set. -/
def regs (v1 v2 v15 : Byte) : State := ((State.reset.writeV 1 v1).writeV 2 v2).writeV 15 v15

/-- V1 and VF. -/
def v1f (s : State) : Byte × Byte := (s.readV 1, s.readV vf)

/-- The reset state with other settings of the parameters. -/
def altReset : State := State.resetWith { defaultConfig with shiftSrc := .vy, keyOor := .maskLowNibble, addrSum := .unbounded } 0

/-- The reset state with I set and bytes stored there. -/
def atI (s : State) (i : Word) (bytes : List Byte) : State := (s.loadFrom i.toNat bytes).writeI i

/-- The first five pixels of a row. -/
def five (s : State) (row : Fin 32) : List Bool := (s.disp[row]).toList.take 5

-- A1 to A30
theorem test_ldImm : ran State.reset 0x6A05 (fun s => (s.readV 10, s.pc)) = some (0x05, 0x202) := by decide
theorem test_addImm_wraps : ran (regs 0xFF 0 0x07) 0x7101 v1f = some (0x00, 0x07) := by decide
theorem test_addImm_vf : ran (regs 0 0 0x41) 0x7F01 v1f = some (0, 0x42) := by decide
theorem test_ldReg : ran (regs 0 0x33 0) 0x8120 v1f = some (0x33, 0) := by decide
theorem test_orReg : ran (regs 0xF0 0x0F 0x05) 0x8121 v1f = some (0xFF, 0x05) := by decide
theorem test_andReg : ran (regs 0xF0 0x3C 0x05) 0x8122 v1f = some (0x30, 0x05) := by decide
theorem test_xorReg : ran (regs 0xFF 0x0F 0) 0x8123 v1f = some (0xF0, 0) := by decide
theorem test_addReg_carry : ran (regs 0x80 0x80 0) 0x8124 v1f = some (0x00, 1) := by decide
theorem test_addReg_vf : ran (regs 0 0x01 0xFF) 0x8F24 v1f = some (0, 1) ∧
    ran (regs 0 0x01 0x10) 0x8F24 v1f = some (0, 0) := by decide
theorem test_subReg_borrow : ran (regs 0x03 0x05 0) 0x8125 v1f = some (0xFE, 0) := by decide
theorem test_subReg_equal : ran (regs 0x05 0x05 0) 0x8125 v1f = some (0x00, 1) := by decide
theorem test_shr : ran (regs 0x01 0xFF 0) 0x8126 v1f = some (0x00, 1) := by decide
theorem test_shr_vy : ran ((altReset.writeV 1 0x01).writeV 2 0xFF) 0x8126 v1f = some (0x7F, 1) := by decide
theorem test_subn_borrow : ran (regs 0x05 0x03 0) 0x8127 v1f = some (0xFE, 0) := by decide
theorem test_subn : ran (regs 0x03 0x05 0) 0x8127 v1f = some (0x02, 1) := by decide
theorem test_shl : ran (regs 0x01 0x80 0) 0x812E v1f = some (0x02, 0) := by decide
theorem test_shl_vy : ran ((altReset.writeV 1 0x01).writeV 2 0x80) 0x812E v1f = some (0x00, 1) := by decide
/-- A30: with the draw 0xA5. -/
theorem test_rnd_masks : (State.reset.loadRandom 1 0x0F 0xA5).readV 1 = 0x05 := by decide
/-- A31: whatever the draw is. -/
theorem test_rnd_zero_mask (s : State) : seen (exec (.rnd 1 0x00) s) (fun t => t.readV 1) = some 0 := by
  simp [seen, exec, execRnd, State.loadRandom, State.readV, State.writeV, State.takeDraw]

-- CF1 to CF17
theorem test_jp : ran State.reset 0x1ABC (fun s => s.pc) = some 0xABC := by decide
/-- L1-7. -/
theorem test_jp_self : seen (step (State.reset.loadOp [0x12, 0x00])) (fun s => s == State.reset.loadOp [0x12, 0x00]) = some true := by
  decide
theorem test_call : ran (State.reset.writePc 0x204) 0x2210 (fun s => (s.stack[0], s.sp, s.pc)) = some (0x206, 1, 0x210) := by
  decide
/-- The reset state with a full stack, STACK[15] = 0x300. -/
def fullStack : State := { State.reset with sp := 16, stack := State.reset.stack.set 15 0x300 }
theorem test_call_full : ran (fullStack.writePc 0x400) 0x2500 (fun s => (s.stack == fullStack.stack, s.sp, s.pc)) =
    some (true, 16, 0x500) := by decide
theorem test_ret_top : ran (fullStack.writePc 0x500) 0x00EE (fun s => (s.sp, s.pc)) = some (15, 0x300) := by decide
theorem test_ret_empty : ran (State.reset.writePc 0x300) 0x00EE (fun s => (s.sp, s.pc, s.err)) = some (0, 0x302, none) := by
  decide
theorem test_seImm : ran (State.reset.writeV 3 0x12) 0x3312 (fun s => s.pc) = some 0x204 ∧
    ran (State.reset.writeV 3 0x13) 0x3312 (fun s => s.pc) = some 0x202 := by decide
theorem test_sneImm : ran (State.reset.writeV 3 0x13) 0x4312 (fun s => s.pc) = some 0x204 ∧
    ran (State.reset.writeV 3 0x12) 0x4312 (fun s => s.pc) = some 0x202 := by decide
theorem test_seReg : ran (regs 7 8 0) 0x5120 (fun s => s.pc) = some 0x202 ∧
    ran (regs 7 8 0) 0x5550 (fun s => s.pc) = some 0x204 := by decide
theorem test_sneReg : ran (regs 7 8 0) 0x9120 (fun s => s.pc) = some 0x204 ∧
    ran (regs 7 8 0) 0x9550 (fun s => s.pc) = some 0x202 := by decide
theorem test_jpV0 : ran (State.reset.writeV 0 0xFF) 0xBFFF (fun s => s.pc) = some 0x10FE := by decide
/-- CF17: a skip out of memory. -/
theorem test_skip_leaves_memory : ran (State.reset.writePc 0xFFE) 0x3000 (fun s => s.pc) = some 0x1002 := by decide

-- M1 to M17
theorem test_ldI : ran State.reset 0xA123 (fun s => s.i) = some 0x123 := by decide
theorem test_addI_keeps_thirteen_bits : ran ((regs 0 0x01 0).writeI 0x0FFF) 0xF21E (fun s => (s.i, s.readV vf)) =
    some (0x1000, 0) := by decide
theorem test_addI_wraps : ran ((regs 0 0x02 0).writeI 0xFFFF) 0xF21E (fun s => s.i) = some 0x0001 := by decide
theorem test_ldF_low_nibble : ran (State.reset.writeV 4 0x1A) 0xF429 (fun s => s.i) = some 0x32 := by decide
theorem test_ldB : ran ((State.reset.writeV 0 254).writeI 0x300) 0xF033
    (fun s => (s.memRead 0x300, s.memRead 0x301, s.memRead 0x302, s.i)) = some (2, 5, 4, 0x300) := by decide
/-- M13, under both settings of ADDR_SUM. -/
theorem test_ldB_top : ran ((State.reset.writeV 0 123).writeI 0xFFFF) 0xF033 (fun s => (s.memRead 0, s.memRead 1)) =
      some (2, 3) ∧
    ran ((altReset.writeV 0 123).writeI 0xFFFF) 0xF033 (fun s => (s.memRead 0, s.memRead 1)) = some (0xF0, 0x90) := by decide
theorem test_stRegs : ran (atI (regs 0x22 0x33 0) 0x400 []) 0xF155
    (fun s => (s.memRead 0x400, s.memRead 0x401, s.memRead 0x402, s.i)) = some (0, 0x22, 0, 0x400) := by decide
/-- M15: the stores above memory are dropped. -/
theorem test_stRegs_top : ran (((State.reset.writeV 7 0x77).writeV 8 0x88).writeI 0xFF8) 0xFF55
    (fun s => (s.memRead 0xFFF, s.memRead 0x1000, s.memRead 0, s.i)) = some (0x77, 0, 0xF0, 0xFF8) := by decide
theorem test_ldRegs_top : ran (atI (regs 0 0x55 0) 0xFFE [0xAA, 0xBB]) 0xF265
    (fun s => (s.readV 0, s.readV 1, s.readV 2)) = some (0xAA, 0xBB, 0x00) := by decide
theorem test_ldRegs_vf : ran (atI State.reset 0x500 [0, 1, 2, 3, 4, 5, 6, 7, 8, 9, 10, 11, 12, 13, 14, 0x1F]) 0xFF65
    (fun s => (s.readV 1, s.readV vf, s.i)) = some (1, 0x1F, 0x500) := by decide

-- D1 to D17
theorem test_cls : ran ((State.reset.setPixel 3 4 true).writeV 15 9) 0x00E0
    (fun s => (s.anyLit, s.changed, s.readV vf)) = some (false, true, 9) := by decide
theorem test_cls_clear : ran State.reset 0x00E0 (fun s => s.changed) = some false := by decide
/-- D4. -/
theorem test_drw : ran (atI State.reset 0x300 [0xF0, 0x90]) 0xD012 (fun s => (five s 0, five s 1, five s 2, s.readV vf, s.changed)) =
    some ([true, true, true, true, false], [true, false, false, true, false], [false, false, false, false, false], 0, true) := by
  decide
/-- D11, D12: of two lit pixels the one under the sprite's bit goes out. D9: a sprite wholly off the grid draws nothing. -/
theorem test_drw_collides : ran (((atI State.reset 0x300 [0x80]).setPixel 0 0 true).setPixel 0 1 true) 0xD011
      (fun s => (five s 0, s.readV vf)) = some ([false, true, false, false, false], 1) ∧
    ran ((atI State.reset 0x300 [0xFF]).writeV 0 250) 0xD011 (fun s => (s.anyLit, s.readV vf)) = some (false, 0) := by decide

-- T1 to T11
theorem test_ldVxDT : ran (State.reset.writeDT 0x3C) 0xF307 (fun s => (s.readV 3, s.dt)) = some (0x3C, 0x3C) := by decide
theorem test_ldDTVx : ran (State.reset.writeV 3 0x3C) 0xF315 (fun s => (s.dt, s.tickOp.dt)) = some (0x3C, 0x3B) := by decide
theorem test_ldSTVx : ran (State.reset.writeV 3 0x02) 0xF318
    (fun s => (s.st, s.soundOn, s.tickOp.soundOn, s.tickOp.tickOp.soundOn, s.tickOp.tickOp.tickOp.st)) =
    some (2, true, true, false, 0) := by decide
theorem test_skp : ran ((State.reset.writeV 5 7).writeKey 7 true) 0xE59E (fun s => s.pc) = some 0x204 ∧
    ran (State.reset.writeV 5 7) 0xE59E (fun s => s.pc) = some 0x202 := by decide
/-- T8, under both settings of KEY_OOR. -/
theorem test_skp_above_fifteen : ran ((State.reset.writeV 5 0x17).writeKey 7 true) 0xE59E (fun s => s.pc) = some 0x202 ∧
    ran ((altReset.writeV 5 0x17).writeKey 7 true) 0xE59E (fun s => s.pc) = some 0x204 := by decide
theorem test_sknp : ran ((State.reset.writeV 5 7).writeKey 7 true) 0xE5A1 (fun s => s.pc) = some 0x202 ∧
    ran (State.reset.writeV 5 0x17) 0xE5A1 (fun s => s.pc) = some 0x204 := by decide
theorem test_ldVxK_waits : ran (State.reset.writeKey 5 true) 0xF10A (fun s => (s.wait, s.readV 1, s.pc)) =
    some (some 1, 0, 0x202) := by decide
/-- T10: the wait completed by the lower of two keys, and the next instruction run, in one step. -/
def waiting : State := ((State.reset.loadOp [0x61, 0x07]).writeWait (some 2)).writeKey 9 true
theorem test_ldVxK_completes : seen (step (waiting.writeKey 3 true)) (fun s => (s.readV 2, s.wait, s.readV 1, s.pc)) =
    some (3, none, 7, 0x202) := by decide

-- E1, E13, E14, E15
theorem test_halts_from_reset : seen (step State.reset) (fun s => (s.err, s.pc, s.engine)) =
    some (some ⟨0x0000, 0x200⟩, 0x202, .halted) := by decide
theorem test_fetch_at_the_last_byte : seen (step ((State.reset.memWrite 0xFFF 0x12).writePc 0xFFF)) (fun s => s.pc) =
    some 0x200 := by decide
theorem test_fetch_odd : ran (State.reset.writePc 0x201) 0x6A05 (fun s => (s.readV 10, s.pc)) = some (5, 0x203) := by decide
theorem test_wait_completes_then_halts : seen (step ((State.reset.writeWait (some 2)).writeKey 4 true))
    (fun s => (s.readV 2, s.wait, s.err)) = some (4, none, some ⟨0x0000, 0x200⟩) := by decide

-- H1 to H4, T12, T14, L1-9, D16
theorem test_load : seen ((HostOp.load [0x60, 0x01]).run ((State.reset.memWrite 0x202 0xAA).writePc 0x345))
    (fun s => (s.memRead 0x200, s.memRead 0x201, s.memRead 0x202, s.pc)) = some (0x60, 0x01, 0xAA, 0x345) := by decide
theorem test_reset_erases : seen (HostOp.reset.run (State.reset.loadOp [0x60])) (fun s => s == State.reset) = some true := by
  decide
theorem test_setKey_out_of_range : seen ((HostOp.setKey 16 true).run State.reset) (fun s => s == State.reset) = some true ∧
    seen ((HostOp.setKey (-1) true).run State.reset) (fun s => s == State.reset) = some true := by decide
theorem test_tick_floor : seen (HostOp.tick.run State.reset) (fun s => (s.dt, s.st, s.soundOn)) = some (0, 0, false) := by decide
theorem test_consumeChanged : HostOp.consumeChanged.answer (State.reset.markChanged true) = .bit true ∧
    seen (HostOp.consumeChanged.run (State.reset.markChanged true)) (fun s => s.changed) = some false := by decide

/-! ### Witnesses: for each obligation with hypotheses, inputs that meet them, at the edges of their ranges -/

theorem witness_DecodeOfEncodeIsTheInstruction :
    (Instr.drw 15 15 15).wellFormed = true ∧ decode (encode (.drw 15 15 15)) = .ok (.drw 15 15 15) := by decide

theorem witness_EncodeOfDecodeIsTheOpcode : decode 0xDFFF = .ok (.drw 15 15 15) ∧ encode (.drw 15 15 15) = 0xDFFF := by decide

/-- A legal and an illegal opcode. -/
theorem witness_StepRunsTheDecodedInstruction :
    ((State.reset.loadOp [0x6A, 0x05]).engine = .running ∧
      (0x6A05 : Word) = (State.reset.loadOp [0x6A, 0x05]).memRead 0x200 ++ (State.reset.loadOp [0x6A, 0x05]).memRead 0x201 ∧
      decode 0x6A05 = .ok (.ldImm 10 5)) ∧
    (State.reset.engine = .running ∧ (0x0000 : Word) = State.reset.memRead 0x200 ++ State.reset.memRead 0x201 ∧
      decode 0x0000 = .error .notClsOrRet) := by decide

theorem witness_UnrecognizedOpcodeHalts :
    State.reset.engine = .running ∧ decode State.reset.fetchOpcode = .error .notClsOrRet := by decide

/-- A halted machine: E1. -/
def halted : State := State.reset.illegalOpcode

theorem witness_HaltedStepChangesNothing : halted.engine = .halted := by decide

/-- An operation that leaves the Halted state and two that do not. -/
theorem witness_OnlyResetLeavesHalted : halted.engine = .halted ∧ (∃ t, HostOp.reset.run halted = .next t) ∧
    (∃ t, HostOp.step.run halted = .next t) ∧ ∃ t, (HostOp.load [0x12, 0x00]).run halted = .next t :=
  ⟨by decide, ⟨_, rfl⟩, ⟨_, rfl⟩, ⟨_, rfl⟩⟩

/-- No key; the last key alone. -/
theorem witness_KeyWaitStep :
    let s := State.reset.writeWait (some 15)
    let t := s.writeKey 15 true
    (s.err = none ∧ s.wait = some 15 ∧ ∀ k, s.readKey k = false) ∧
    (t.err = none ∧ t.wait = some 15 ∧ t.readKey 15 = true ∧ ∀ j, j < 15 → t.readKey j = false) := by decide

theorem witness_FetchOutsideMemoryHalts :
    (State.reset.writePc 0x1000).engine = .running ∧ 0x1000 ≤ (State.reset.writePc 0x1000).pc.toNat ∧
    (State.reset.writePc 0x1100).pc.toNat ≤ 0x1100 ∧ (State.reset.writePc 0xFFF).pc = 0xFFF := by decide

/-- Both settings at the last sum below the wrap and at the last one past it. -/
theorem witness_AddressSum :
    State.reset.cfg.addrSum = .wrap16 ∧ altReset.cfg.addrSum = .unbounded ∧
    State.reset.ea 0xFFEF 16 = 0xFFFF ∧ altReset.ea 0xFFEF 16 = 0xFFFF ∧
    State.reset.ea 0xFFFF 16 = 0x000F ∧ altReset.ea 0xFFFF 16 = 0x1000F := by decide

/-- The last I and the last PC that meet the bounds. -/
theorem witness_AddrSumIsInvisibleBelowTheWrap :
    let s := (State.reset.writeI 0xFFF0).writePc 0xFFFE
    s.i.toNat < 0xFFF1 ∧ s.pc.toNat < 0xFFFF ∧ ∃ t, step s = .next t := ⟨by decide, by decide, ⟨_, rfl⟩⟩

/-- What SkipOnKey assumes of the bit `pressed`. -/
def KeyHyps (s : State) (x : Reg) (pressed : Bool) : Prop :=
  (∀ k : Reg, (s.readV x).toNat = k.val → pressed = s.readKey k) ∧
  (16 ≤ (s.readV x).toNat → s.cfg.keyOor = .notPressed → pressed = false) ∧
  (∀ k : Reg, 16 ≤ (s.readV x).toNat → s.cfg.keyOor = .maskLowNibble → (s.readV x).toNat % 16 = k.val → pressed = s.readKey k)

/-- Register values 15, 16 and 255, with key 15 pressed, under both settings of KEY_OOR. -/
theorem witness_SkipOnKey :
    KeyHyps ((State.reset.writeV 5 15).writeKey 15 true) 5 true ∧ KeyHyps ((State.reset.writeV 5 16).writeKey 0 true) 5 false ∧
    KeyHyps ((altReset.writeV 5 16).writeKey 15 true) 5 false ∧ KeyHyps ((altReset.writeV 5 255).writeKey 15 true) 5 true :=
  ⟨⟨by decide, by decide, by decide⟩, ⟨by decide, by decide, by decide⟩, ⟨by decide, by decide, by decide⟩,
    ⟨by decide, by decide, by decide⟩⟩

/-- A jump to itself, and the least and the greatest target of Bnnn outside memory. -/
theorem witness_JumpsAreAbsolute :
    let s := State.reset.loadOp [0x12, 0x00]
    s.engine = .running ∧ s.fetchOpcode = wordNNN 0x1 0x200 ∧ s.pc.toNat = (0x200 : Addr12).toNat ∧
    seen (exec (.jpV0 0xFFF) (s.writeV 0 1)) (fun t => t.pc) = some 0x1000 ∧
    seen (exec (.jpV0 0xFFF) (s.writeV 0 0xFF)) (fun t => t.pc) = some 0x10FE := by decide

/-- The sizes at the edges: an empty stack, one below a full one, a full one. -/
theorem witness_CallPushesAndJumps : State.reset.sp.val < 16 ∧ ({ fullStack with sp := 15 } : State).sp.val < 16 ∧
    fullStack.sp.val = 16 := by decide

theorem witness_ReturnPopsOrDoesNothing : fullStack.sp.val = (15 : Fin 16).val + 1 ∧
    ({ fullStack with sp := 1 } : State).sp.val = (0 : Fin 16).val + 1 ∧ State.reset.sp.val = 0 := by decide

/-- A call from a stack with one entry free. -/
theorem witness_ReturnComesBackAfterTheCall : ∃ s t u v : State, s.sp.val < 16 ∧ exec (.call 0x300) s = .next t ∧
    Part.stack.Same t u ∧ exec .ret u = .next v :=
  ⟨{ fullStack with sp := 15 }, _, _, _, by decide, rfl, ⟨rfl, rfl⟩, rfl⟩

theorem witness_ShiftsWriteTheBitShiftedOut :
    (State.reset.cfg.shiftSrc = .vx ∧ ((State.reset.writeV 1 0x81).readV 1).toNat = 0x81) ∧
    (altReset.cfg.shiftSrc = .vy ∧ ((altReset.writeV 2 0x81).readV 2).toNat = 0x81) := by decide

theorem witness_RandomIsMasked : (0x7F : Byte).getLsbD 7 = false := by decide

/-- A step that takes a draw and one that does not. -/
theorem witness_OnlyRandomTakesADraw :
    (∃ t, step (State.reset.loadOp [0xC1, 0x0F]) = .next t) ∧
    (∃ u x nn, (State.reset.loadOp [0xC1, 0x0F]).beginStep = some u ∧ decode u.fetchOpcode = .ok (.rnd x nn)) ∧
    ∃ t, step State.reset = .next t := ⟨⟨_, rfl⟩, ⟨_, _, _, rfl, rfl⟩, ⟨_, rfl⟩⟩

/-- The last address sum of Fx1E that reads memory and the first that does not. -/
theorem witness_AddressRegister :
    seen (exec (.addI 1) ((regs 1 0 0).writeI 0xFFE)) (fun t => t.i.toNat) = some 0xFFF ∧
    seen (exec (.addI 1) ((regs 1 0 0).writeI 0xFFF)) (fun t => t.i.toNat) = some 0x1000 := by decide

/-- The last I with all three digits in memory; the third dropped; an untouched byte. -/
theorem witness_BcdStoresThreeDigits :
    let s := State.reset.writeI 0xFFD
    let t := State.reset.writeI 0xFFE
    s.ea s.i 0 < 4096 ∧ s.ea s.i 1 < 4096 ∧ s.ea s.i 2 < 4096 ∧ t.ea t.i 1 < 4096 ∧ ¬ t.ea t.i 2 < 4096 ∧
    0xFFC ≠ s.ea s.i 0 ∧ 0xFFC ≠ s.ea s.i 1 ∧ 0xFFC ≠ s.ea s.i 2 := by decide

/-- V15 stored at the last byte of memory, and dropped one above it; an untouched byte. -/
theorem witness_StoreRegisters :
    let s := State.reset.writeI 0xFF0
    let t := State.reset.writeI 0xFF1
    (15 : Reg) ≤ 15 ∧ s.ea s.i 15 < 4096 ∧ ¬ t.ea t.i 15 < 4096 ∧ ∀ k : Reg, k ≤ 15 → 0xFEF ≠ s.ea s.i k.val := by decide

theorem witness_LoadRegisters :
    let s := State.reset.writeI 0xFF1
    (14 : Reg) ≤ 15 ∧ s.ea s.i 14 < 4096 ∧ 4096 ≤ s.ea s.i 15 := by decide

/-- All 16 registers in the last 16 bytes of memory. -/
theorem witness_LoadGivesBackWhatStoreSaved : ∃ s t u w : State, s.i.toNat + (15 : Reg).val < 4096 ∧
    exec (.stRegs 15) s = .next t ∧ Part.mem.Same t u ∧ u.i = s.i ∧ exec (.ldRegs 15) u = .next w :=
  ⟨State.reset.writeI 0xFF0, _, _, _, by decide, rfl, fun _ => rfl, rfl, rfl⟩

theorem witness_FetchSeesStoredBytes : ∃ s t : State, (15 : Reg).val = (14 : Reg).val + 1 ∧ (15 : Reg) ≤ 15 ∧
    s.i.toNat + (15 : Reg).val < 4096 ∧ exec (.stRegs 15) s = .next t :=
  ⟨State.reset.writeI 0xFF0, _, by decide, by decide, by decide, rfl⟩

/-- A sprite with a bit on the last pixel of the grid, unlit and lit. -/
theorem witness_DrawFlipsTheCoveredPixels :
    let s := (((atI State.reset 0x300 [0x80]).writeV 0 63).writeV 1 31)
    (s.SpriteCovers 0 1 1 31 63 ∧ s.pixel 31 63 = false) ∧
    ((s.setPixel 31 63 true).SpriteCovers 0 1 1 31 63 ∧ (s.setPixel 31 63 true).pixel 31 63 = true) := by
  unfold State.SpriteCovers; decide

theorem witness_DrawingTwiceRestoresTheDisplay : ∃ s t u : State, (0 : Reg) ≠ vf ∧ (1 : Reg) ≠ vf ∧
    exec (.drw 0 1 15) s = .next t ∧ exec (.drw 0 1 15) t = .next u :=
  ⟨State.reset, _, _, by decide, by decide, rfl, rfl⟩

/-- A step that flips pixels; an operation in a state with CHANGED set. -/
theorem witness_ChangedIsSetOnFlipsAndNeverClearedByTheEngine :
    (∃ t, HostOp.step.run ((State.reset.setPixel 31 63 true).loadOp [0x00, 0xE0]) = .next t ∧
      t.pixel 31 63 ≠ ((State.reset.setPixel 31 63 true).loadOp [0x00, 0xE0]).pixel 31 63) ∧
    ∃ t, HostOp.tick.run (State.reset.markChanged true) = .next t ∧ (State.reset.markChanged true).changed = true :=
  ⟨⟨_, rfl, by decide⟩, ⟨_, rfl, rfl⟩⟩

/-- CHANGED changed by CONSUME_CHANGED, and by a step that clears a lit display. -/
theorem witness_ConsumeChangedReadsAndClears :
    (∃ t, HostOp.consumeChanged.run (State.reset.markChanged true) = .next t ∧
      t.changed ≠ (State.reset.markChanged true).changed) ∧
    ∃ t, HostOp.step.run ((State.reset.setPixel 31 63 true).loadOp [0x00, 0xE0]) = .next t ∧
      t.changed ≠ ((State.reset.setPixel 31 63 true).loadOp [0x00, 0xE0]).changed :=
  ⟨⟨_, rfl, by decide⟩, ⟨_, rfl, by decide⟩⟩

theorem witness_ReadErrorAndReadState : State.reset.err = none ∧ halted.err = some ⟨0x0000, 0x200⟩ := by decide

/-- No key; the last key alone. -/
theorem witness_WaitForKey :
    State.reset.err = none ∧ (∀ k, State.reset.readKey k = false) ∧ (State.reset.writeKey 15 true).readKey 15 = true ∧
    ∀ j, j < 15 → (State.reset.writeKey 15 true).readKey j = false := by decide

/-- DT changed by Fx15, ST by Fx18. -/
theorem witness_TimersChangeOnlyByTickAndTheirInstructions :
    (∃ t, HostOp.step.run ((regs 7 0 0).loadOp [0xF1, 0x15]) = .next t ∧ t.dt ≠ ((regs 7 0 0).loadOp [0xF1, 0x15]).dt) ∧
    ∃ t, HostOp.step.run ((regs 7 0 0).loadOp [0xF1, 0x18]) = .next t ∧ t.st ≠ ((regs 7 0 0).loadOp [0xF1, 0x18]).st :=
  ⟨⟨_, rfl, by decide⟩, ⟨_, rfl, by decide⟩⟩

/-- The first index on either side of the range. -/
theorem witness_SetKeyWritesOneKey : ((-1 : Int) < 0 ∨ 15 < (-1 : Int)) ∧ ((16 : Int) < 0 ∨ 15 < (16 : Int)) := by decide

/-- Another key is set. -/
theorem witness_KeysAreLatched : (∃ t, (HostOp.setKey 14 true).run State.reset = .next t) ∧
    (HostOp.setKey 14 true) ≠ .reset ∧ ∀ p, (HostOp.setKey 14 true) ≠ .setKey (((15 : Reg).val : Nat) : Int) p :=
  ⟨⟨_, rfl⟩, by decide, by decide⟩

/-- The last byte of the font and the first byte after it. -/
theorem witness_ResetValues : State.reset.memRead 79 = 0x80 ∧ State.reset.memRead 80 = 0 := by decide

/-- A covered byte, and the bytes just outside the two that are loaded. -/
theorem witness_LoadWritesFromTheLoadOffset : 1 < [(0x60 : Byte), 0x01].length ∧ 0x200 + 1 < 4096 ∧ 0x1FF < 0x200 ∧
    0x200 + [(0x60 : Byte), 0x01].length ≤ 0x202 := by decide

theorem witness_PlacedInstructionRunsNext : (Instr.drw 15 15 15).wellFormed = true := by decide

/-- The invariant holds after reset. -/
theorem reset_inv : Inv State.reset := ⟨by decide, by decide, by decide, by decide, by decide⟩

theorem witness_StepKeepsTheInvariant : Inv State.reset ∧ ∃ t, step State.reset = .next t := ⟨reset_inv, ⟨_, rfl⟩⟩

theorem witness_HostOperationsKeepTheInvariant : Inv State.reset ∧ ∃ t, (HostOp.load [0x12, 0x00]).run State.reset = .next t :=
  ⟨reset_inv, ⟨_, rfl⟩⟩

theorem witness_ReachablePcAndStackRange : Reachable State.reset := .reset _ _

/-- A waiting machine, a halted one, and an operation. -/
theorem witness_NeverHaltedAndWaiting : Reachable State.reset ∧
    ¬ ((State.reset.writeWait (some 3)).err ≠ none ∧ (State.reset.writeWait (some 3)).wait ≠ none) ∧
    ¬ (halted.err ≠ none ∧ halted.wait ≠ none) ∧ ∃ t, HostOp.step.run (State.reset.writeWait (some 3)) = .next t :=
  ⟨.reset _ _, by decide, by decide, ⟨_, rfl⟩⟩

/-- Fx55 and Fx33 at the top of memory with the byte just below what they store, a draw with a pixel just off its sprite, and
a call with the entries beside the one it writes. -/
theorem witness_InstructionsWriteOnlyWhatTheirRulesName :
    (∃ t, exec (.stRegs 15) (State.reset.writeI 0xFF0) = .next t) ∧
    0xFEF ∉ (Instr.stRegs 15).storeAddrs (State.reset.writeI 0xFF0) ∧
    0xFFF ∈ (Instr.stRegs 15).storeAddrs (State.reset.writeI 0xFF0) ∧
    (∃ t, exec (.ldB 0) (State.reset.writeI 0xFFD) = .next t) ∧ 0xFFC ∉ (Instr.ldB 0).storeAddrs (State.reset.writeI 0xFFD) ∧
    (∃ t, exec (.drw 0 1 1) State.reset = .next t) ∧ ¬ State.reset.SpriteCovers 0 1 1 1 0 ∧
    (∃ t, exec (.call 0x300) { fullStack with sp := 15 } = .next t) ∧ (14 : Fin 16).val ≠ ({ fullStack with sp := 15 } : State).sp.val :=
  ⟨⟨_, rfl⟩, by decide, by decide, ⟨_, rfl⟩, by decide, ⟨_, rfl⟩, by unfold State.SpriteCovers; decide, ⟨_, rfl⟩, by decide⟩

/-- Two states that differ in V2, which 7xnn with x = 1 does not read. -/
theorem witness_InstructionsReadOnlyTheirRegisters :
    let s := regs 1 2 0
    let s' := regs 1 9 0
    s' = { s with v := s'.v } ∧ (∀ r, r ∈ (Instr.addImm 1 5).regReads s.cfg.shiftSrc → s'.readV r = s.readV r) ∧
    ∃ t, exec (.addImm 1 5) s = .next t := ⟨rfl, by decide, ⟨_, rfl⟩⟩

/-- A memory with cells at both ends of memory, in the canonical form. -/
theorem witness_CanonicalMemoriesThatReadAlikeAreEqual :
    Memory.wf conventionalFont [(0, 0x01), (0xFFF, 0x02)] = true ∧
    ∀ a, Memory.read conventionalFont [(0, 0x01), (0xFFF, 0x02)] a = Memory.read conventionalFont [(0, 0x01), (0xFFF, 0x02)] a :=
  ⟨by decide, fun _ => rfl⟩

end Sys2Proof.Tests
end

section
/-! PROOFS. The state family (10_state.md). First what every instruction writes and leaves unchanged, then the
invariant of R37 and R40, CHANGED, the registers an instruction reads, and the canonical form of memory. -/

namespace Sys2Proof.Machine

/-! ### The stack and the program counter after an operation -/

section
variable (s : State)

/-- A push writes no entry but STACK[SP], and there only the word pushed (R102). -/
theorem State.push_entry (w : Word) (k : Fin 16) :
    (s.push w).stack[k] = s.stack[k] ∨ (k.val = s.sp.val ∧ (s.push w).stack[k] = w) := by
  by_cases h : s.sp.val < 16
  · by_cases hk : k.val = s.sp.val
    · exact .inr ⟨hk, by simp [State.push_room s h, hk]⟩
    · exact .inl (by simp [State.push_room s h, Ne.symm hk])
  · rw [s.push_full (by omega)]; exact .inl rfl

/-- A pop writes no stack entry (R100). -/
@[simp] theorem State.popPc_stack : s.popPc.stack = s.stack := by
  unfold State.popPc; split <;> rfl

/-- A pop leaves PC as it is or takes it from a stack entry (R100). -/
theorem State.popPc_pc : s.popPc.pc = s.pc ∨ ∃ k : Fin 16, s.popPc.pc = s.stack[k] := by
  unfold State.popPc
  split
  · exact .inr ⟨⟨s.sp.val - 1, by omega⟩, rfl⟩
  · exact .inl rfl

theorem State.advancePc_pc_toNat (h : s.pc.toNat + 2 < 65536) : s.advancePc.pc.toNat = s.pc.toNat + 2 := by
  simp [State.advancePc, trunc16, Nat.mod_eq_of_lt h]

theorem State.skipIf_pc_le (c : Bool) (h : s.pc.toNat + 2 < 65536) : (s.skipIf c).pc.toNat ≤ s.pc.toNat + 2 := by
  cases c with
  | true => exact (s.advancePc_pc_toNat h).le
  | false => exact Nat.le_add_right _ _

theorem zext16_toNat (nnn : Addr12) : (zext16 nnn).toNat = nnn.toNat := by
  rw [zext16, BitVec.toNat_setWidth]; omega

theorem jumpSum_toNat (nnn : Addr12) (b : Byte) : (jumpSum nnn b).toNat = nnn.toNat + b.toNat := by
  rw [jumpSum, trunc16, BitVec.toNat_ofNat]; omega

end

/-! ### What an instruction writes (R24, R25 to R35) -/

theorem exec_frame {i : Instr} {s t : State} (h : exec i s = .next t) : Frame i.regWrites i.partWrites s t := by
  cases i with
  | cls =>
    cases h
    exact ((s.frame_markChanged _).mono (by simp) (by simp [Instr.partWrites])).trans
      ((State.frame_clearDisplay _).mono (by simp) (by simp [Instr.partWrites]))
  | ret => cases h; exact s.frame_popPc
  | jp | jpV0 => cases h; exact s.frame_writePc _
  | call =>
    cases h
    exact ((s.frame_push _).mono (by simp) (by simp [Instr.partWrites])).trans
      ((State.frame_writePc _ _).mono (by simp) (by simp [Instr.partWrites]))
  | seImm | sneImm | seReg | sneReg | skp | sknp => cases h; exact s.frame_skipIf _
  | ldImm | addImm | ldReg | orReg | andReg | xorReg | ldVxDT => cases h; exact s.frame_writeV _ _
  | addReg | subReg | shr | subn | shl =>
    cases h
    exact ((s.frame_writeV _ _).mono (by simp [Instr.regWrites]) (by simp)).trans
      ((State.frame_writeFlag _ _).mono (by simp [Instr.regWrites]) (by simp))
  | ldI | addI | ldF => cases h; exact s.frame_writeI _
  | rnd =>
    cases h
    exact ((s.frame_writeV _ _).mono (by simp [Instr.regWrites]) (by simp)).trans
      ((State.frame_takeDraw _).mono (by simp) (by simp [Instr.partWrites]))
  | drw =>
    cases h
    exact ((s.frame_blit _ _ _).mono (by simp) (by simp [Instr.partWrites])).trans
      ((State.frame_writeFlag _ _).mono (by simp [Instr.regWrites]) (by simp))
  | ldVxK => cases h; exact s.frame_writeWait _
  | ldDTVx => cases h; exact s.frame_writeDT _
  | ldSTVx => cases h; exact s.frame_writeST _
  | ldB => cases h; exact s.frame_storeBcd _
  | stRegs => cases h; exact s.frame_storeRegs _
  | ldRegs => cases h; exact s.frame_loadRegs _

theorem err_notMem_partWrites (i : Instr) : Part.err ∉ i.partWrites := by cases i <;> simp [Instr.partWrites]

theorem cfg_notMem_partWrites (i : Instr) : Part.cfg ∉ i.partWrites := by cases i <;> simp [Instr.partWrites]

theorem exec_err {i : Instr} {s t : State} (h : exec i s = .next t) : t.err = s.err :=
  (exec_frame h).2 .err (err_notMem_partWrites i)

theorem exec_cfg {i : Instr} {s t : State} (h : exec i s = .next t) : t.cfg = s.cfg :=
  (exec_frame h).2 .cfg (cfg_notMem_partWrites i)

/-- Only Fx33 and Fx55 store, and only at the addresses they list (R153, R154). -/
theorem exec_memRead_other {i : Instr} {s t : State} (h : exec i s = .next t) {a : Nat} (ha : a ∉ i.storeAddrs s) :
    t.memRead a = s.memRead a := by
  cases i with
  | ldB =>
    cases h
    obtain ⟨h0, h1, h2⟩ : a ≠ s.ea s.i 0 ∧ a ≠ s.ea s.i 1 ∧ a ≠ s.ea s.i 2 := by
      simpa [Instr.storeAddrs] using ha
    simp [State.memRead_storeBcd, h0, h1, h2]
  | stRegs x =>
    cases h
    exact s.memRead_storeRegs_other _ a fun k hk he => ha (List.mem_map.2 ⟨k, hk, he.symm⟩)
  | _ => exact (exec_frame h).2 .mem (by simp [Instr.partWrites]) a

/-- A draw flips no pixel that its sprite does not cover (R171, R186). -/
theorem exec_keepsUncoveredPixels {i : Instr} {s t : State} (h : exec i s = .next t) : i.KeepsUncoveredPixels s t := by
  rintro x y n rfl row col hn
  cases h
  by_contra hne
  exact hn (((s.blitted_blit x y n).pixels row col).1 hne)

/-- Only 2nnn writes a stack entry, and only STACK[SP] (R27). -/
theorem exec_keepsOtherEntries {i : Instr} {s t : State} (h : exec i s = .next t) : i.KeepsOtherEntries s t := by
  intro k hk
  cases i with
  | call nnn =>
    cases h
    exact (s.push_entry s.pc k).resolve_right fun hw => hk nnn rfl hw.1
  | ret => cases h; exact congrArg (·[k]) s.popPc_stack
  | _ => exact congrArg (·[k]) ((exec_frame h).2 .stack (by simp [Instr.partWrites])).2

/-- Settles O57: the frame, the stores, the drawn pixels and the pushed entry, each by its own lemma over the
instructions. -/
theorem instructionsWriteOnlyWhatTheirRulesName : Obligations.InstructionsWriteOnlyWhatTheirRulesName :=
  fun _ _ _ h =>
    ⟨exec_frame h, fun _ => exec_memRead_other h, exec_keepsUncoveredPixels h, exec_keepsOtherEntries h⟩

/-! ### The canonical form of memory under an instruction -/

section
variable (s : State)

@[simp] theorem State.skipIf_mem (c : Bool) : (s.skipIf c).mem = s.mem := by cases c <;> rfl

@[simp] theorem State.push_mem (w : Word) : (s.push w).mem = s.mem := by
  unfold State.push; split <;> rfl

@[simp] theorem State.popPc_mem : s.popPc.mem = s.mem := by
  unfold State.popPc; split <;> rfl

@[simp] theorem State.loadRegs_mem (rs : List Reg) : (s.loadRegs rs).mem = s.mem := by
  induction rs generalizing s with
  | nil => rfl
  | cons r rs ih => rw [State.loadRegs_cons, ih]; rfl

end

theorem blitPixel_mem (px py : Nat) (bit : Bool) (acc : State × Bool) : (blitPixel px py bit acc).1.mem = acc.1.mem := by
  unfold blitPixel; split <;> rfl

theorem foldl_mem_eq {α : Type} (f : State × Bool → α → State × Bool) (hf : ∀ acc a, (f acc a).1.mem = acc.1.mem)
    (l : List α) (acc : State × Bool) : (l.foldl f acc).1.mem = acc.1.mem := by
  induction l generalizing acc with
  | nil => rfl
  | cons a l ih => exact (ih _).trans (hf acc a)

/-- A blit writes no cell of memory, not even in its form. -/
@[simp] theorem State.blit_mem (s : State) (x y : Reg) (n : Nat) : (s.blit x y n).1.mem = s.mem :=
  foldl_mem_eq _ (fun _ _ => foldl_mem_eq _ (fun _ _ => blitPixel_mem _ _ _ _) _ _) _ _

theorem exec_memWf {i : Instr} {s t : State} (hs : s.memWf = true) (h : exec i s = .next t) : t.memWf = true := by
  have keep (hm : t.mem = s.mem) : t.memWf = true := by rw [State.memWf, exec_cfg h, hm]; exact hs
  cases i with
  | ldB => cases h; exact s.memWf_storeBcd hs _
  | stRegs => cases h; exact s.memWf_storeRegs hs _
  | ret => cases h; exact keep s.popPc_mem
  | call => cases h; exact keep (s.push_mem _)
  | seImm | sneImm | seReg | sneReg | skp | sknp => cases h; exact keep (s.skipIf_mem _)
  | drw => cases h; exact keep (s.blit_mem _ _ _)
  | ldRegs => cases h; exact keep (s.loadRegs_mem _)
  | _ => cases h; exact keep rfl

/-! ### The range of PC and the stack under an instruction (R40) -/

/-- R40's case split: an instruction leaves PC, skips, jumps or returns, and from a fetch in memory none of them gets past
0x10FE, the last target of Bnnn. -/
theorem exec_pc_le {i : Instr} {s t : State} (hpc : s.pc.toNat ≤ 0x1001)
    (hstack : ∀ k : Fin 16, (s.stack[k]).toNat ≤ 0x1001) (h : exec i s = .next t) : t.pc.toNat ≤ 0x10FE := by
  cases i with
  | ret =>
    cases h
    obtain hp | ⟨k, hp⟩ := s.popPc_pc
    · rw [hp]; omega
    · have := hstack k; rw [hp]; omega
  | jp nnn | call nnn =>
    cases h
    rw [State.writePc_pc, zext16_toNat]; omega
  | jpV0 nnn =>
    cases h
    rw [State.writePc_pc, jumpSum_toNat]; omega
  | seImm | sneImm | seReg | sneReg | skp | sknp => cases h; exact (s.skipIf_pc_le _ (by omega)).trans (by omega)
  | _ =>
    have hkeep : t.pc = s.pc := (exec_frame h).2 .pc (by simp [Instr.partWrites])
    rw [hkeep]; omega

/-- A stack entry stays as it is or becomes the PC that 2nnn pushes. -/
theorem exec_stack_le {i : Instr} {s t : State} (hpc : s.pc.toNat ≤ 0x1001)
    (hstack : ∀ k : Fin 16, (s.stack[k]).toNat ≤ 0x1001) (h : exec i s = .next t) (k : Fin 16) :
    (t.stack[k]).toNat ≤ 0x1001 := by
  cases i with
  | call nnn =>
    cases h
    obtain he | ⟨_, he⟩ := s.push_entry s.pc k
    · exact (congrArg BitVec.toNat he).trans_le (hstack k)
    · exact (congrArg BitVec.toNat he).trans_le hpc
  | _ => rw [exec_keepsOtherEntries h k (fun _ hi => by cases hi)]; exact hstack k

/-! ### ERR and WAIT through a step (R37) -/

/-- Where a step goes on to fetch, neither ERR nor WAIT holds. -/
theorem State.beginStep_running_after {s u : State} (h : s.beginStep = some u) : u.err = none ∧ u.wait = none := by
  obtain ⟨he, hw, rfl⟩ | ⟨x, k, he, _, _, rfl⟩ := s.beginStep_cases h
  · exact ⟨he, hw⟩
  · exact ⟨he, rfl⟩

theorem step_oneEngineState {s t : State} (hs : s.err = none ∨ s.wait = none) (h : step s = .next t) :
    t.err = none ∨ t.wait = none := by
  obtain ⟨_, rfl⟩ | ⟨u, hu, hi⟩ := step_cases s h
  · exact hs
  · obtain ⟨herr, hwait⟩ := State.beginStep_running_after hu
    obtain ⟨i, _, hx⟩ | ⟨e, _, rfl⟩ := hi
    · exact .inl ((exec_err hx).trans herr)
    · exact .inr hwait

/-! ### The invariant -/

/-- At 0x1000 and above, in R40's range, the fetch reads the illegal opcode 0x0000 (R57); so what decodes lies in memory. -/
theorem State.pc_lt_of_decode {u : State} (hpc : u.pc.toNat ≤ 0x1100) {i : Instr} (hd : decode u.fetchOpcode = .ok i) :
    u.pc.toNat < 0x1000 := by
  by_contra hge
  have hzero : u.fetchOpcode = 0x0000 := by
    rw [State.fetchOpcode_eq, u.ea_of_lt (by omega), u.memRead_high (by unfold memSize; omega),
      u.memRead_high (by unfold memSize; omega)]
    rfl
  rw [hzero] at hd
  cases hd

/-- The invariant speaks of five elements: it goes over to any state with the same ERR, WAIT, PC and stack and a canonical
memory. -/
theorem Inv.congr {s t : State} (hs : Inv s) (hmem : t.memWf = true) (herr : t.err = s.err)
    (hwait : t.err = none ∨ t.wait = none) (hpc : t.pc = s.pc) (hstack : t.stack = s.stack) : Inv t where
  mem := hmem
  oneEngineState := hwait
  pcNotHalted := by rw [herr, hpc]; exact hs.pcNotHalted
  pc := by rw [hpc]; exact hs.pc
  stack := by rw [hstack]; exact hs.stack

/-- The instruction of a step starts with PC at the fetch address + 2, at most 0x1001. -/
theorem Inv.of_exec {i : Instr} {s t : State} (hs : Inv s) (herr : s.err = none) (hpc : s.pc.toNat ≤ 0x1001)
    (h : exec i s = .next t) : Inv t := by
  have hle : t.pc.toNat ≤ 0x10FE := exec_pc_le hpc hs.stack h
  exact ⟨exec_memWf hs.mem h, .inl ((exec_err h).trans herr), fun _ => hle, by omega, exec_stack_le hpc hs.stack h⟩

theorem Inv.of_beginStep {s u : State} (hs : Inv s) (h : s.beginStep = some u) : Inv u := by
  have hnone := State.beginStep_running_after h
  obtain ⟨_, _, rfl⟩ | ⟨x, k, he, _, _, rfl⟩ := s.beginStep_cases h
  · exact hs
  · exact hs.congr hs.mem rfl (.inl he) rfl rfl

/-- The step that takes the exception halts with PC at the fetch address + 2, at most 0x1100 (R211, R40). -/
theorem Inv.of_illegalOpcode {s : State} (hs : Inv s) (herr : s.err = none) (hwait : s.wait = none) :
    Inv s.illegalOpcode := by
  have hpc : s.pc.toNat ≤ 0x10FE := hs.pcNotHalted herr
  have hadv : s.illegalOpcode.pc.toNat = s.pc.toNat + 2 := s.advancePc_pc_toNat (by omega)
  exact ⟨hs.mem, .inr hwait, nofun, by omega, hs.stack⟩

/-- Settles O53: a step that fetches starts its instruction at 0x1001 at most, because what lies above does not decode. -/
theorem stepKeepsTheInvariant : Obligations.StepKeepsTheInvariant := by
  intro s t hs h
  obtain ⟨_, rfl⟩ | ⟨u, hu, hi⟩ := step_cases s h
  · exact hs
  · have hInv : Inv u := hs.of_beginStep hu
    obtain ⟨herr, hwait⟩ := State.beginStep_running_after hu
    obtain ⟨i, hd, hx⟩ | ⟨e, _, rfl⟩ := hi
    · have hpc : u.pc.toNat < 0x1000 := State.pc_lt_of_decode hInv.pc hd
      have hadv : u.advancePc.pc.toNat = u.pc.toNat + 2 := u.advancePc_pc_toNat (by omega)
      have hAdv : Inv u.advancePc :=
        ⟨hInv.mem, hInv.oneEngineState, fun _ => by omega, by omega, hInv.stack⟩
      exact hAdv.of_exec herr (by omega) hx
    · exact hInv.of_illegalOpcode herr hwait

/-- Settles O52: RESET lists no memory cell, starts at 0x200 and zeroes the stack. -/
theorem resetMeetsTheInvariant : Obligations.ResetMeetsTheInvariant := by
  intro cfg draws
  have hpc : (State.resetWith cfg draws).pc = 0x200 := rfl
  exact
    { mem := Memory.wf_nil cfg.font
      oneEngineState := .inl rfl
      pcNotHalted := fun _ => by rw [hpc]; decide
      pc := by rw [hpc]; decide
      stack := fun k => by simp [State.resetWith] }

/-! ### The host operations -/

theorem State.frame_setKeyOp (s : State) (index : Int) (pressed : Bool) :
    Frame [] [.key] s (s.setKeyOp index pressed) := by
  unfold State.setKeyOp
  split
  · exact s.frame_writeKey _ _
  · exact (Frame.refl s).mono (by simp) (by simp)

theorem State.frame_tickOp (s : State) : Frame [] [.dt, .st] s s.tickOp :=
  ((s.frame_writeDT _).mono (by simp) (by simp)).trans ((State.frame_writeST _ _).mono (by simp) (by simp))

/-- LOAD, TICK and SET_KEY write memory, the timers and the keys; of the rest only STEP, RESET and CONSUME_CHANGED write. -/
theorem HostOp.frame_run_of_ne_consumeChanged {o : HostOp} {s t : State} (h : o.run s = .next t) (hreset : o ≠ .reset)
    (hstep : o ≠ .step) (hconsume : o ≠ .consumeChanged) : Frame [] [.mem, .dt, .st, .key] s t := by
  cases o with
  | reset => exact absurd rfl hreset
  | step => exact absurd rfl hstep
  | consumeChanged => exact absurd rfl hconsume
  | load => cases h; exact (s.frame_loadFrom _ _).mono (by simp) (by simp)
  | tick => cases h; exact s.frame_tickOp.mono (by simp) (by simp)
  | setKey => cases h; exact (s.frame_setKeyOp _ _).mono (by simp) (by simp)
  | _ => cases h; exact (Frame.refl s).mono (by simp) (by simp)

/-- No host operation but STEP and RESET writes V, I, PC, the stack, ERR, WAIT or the display. -/
theorem HostOp.frame_run {o : HostOp} {s t : State} (h : o.run s = .next t) (hreset : o ≠ .reset) (hstep : o ≠ .step) :
    Frame [] [.mem, .dt, .st, .key, .changed] s t := by
  by_cases hconsume : o = .consumeChanged
  · subst hconsume; cases h; exact s.frame_clearChanged.mono (by simp) (by simp)
  · exact (HostOp.frame_run_of_ne_consumeChanged h hreset hstep hconsume).mono (by simp) (by simp)

@[simp] theorem State.setKeyOp_mem (s : State) (index : Int) (pressed : Bool) :
    (s.setKeyOp index pressed).mem = s.mem := by
  unfold State.setKeyOp; split <;> rfl

/-- Of the host operations but STEP only LOAD stores, and it keeps the canonical form. -/
theorem HostOp.memWf_run {o : HostOp} {s t : State} (hs : s.memWf = true) (h : o.run s = .next t) (hreset : o ≠ .reset)
    (hstep : o ≠ .step) : t.memWf = true := by
  have hcfg : t.cfg = s.cfg := (HostOp.frame_run h hreset hstep).2 .cfg (by simp)
  have keep (hm : t.mem = s.mem) : t.memWf = true := by rw [State.memWf, hcfg, hm]; exact hs
  cases o with
  | reset => exact absurd rfl hreset
  | step => exact absurd rfl hstep
  | load => cases h; exact s.memWf_loadFrom hs _ _
  | setKey => cases h; exact keep (s.setKeyOp_mem _ _)
  | _ => cases h; exact keep rfl

/-- Settles O54: STEP by O53, RESET by O52, and the others write nothing the invariant speaks of but memory. -/
theorem hostOperationsKeepTheInvariant : Obligations.HostOperationsKeepTheInvariant := by
  intro o s t hs h
  by_cases hstep : o = .step
  · subst hstep; exact stepKeepsTheInvariant s t hs h
  by_cases hreset : o = .reset
  · subst hreset; cases h; exact resetMeetsTheInvariant _ _
  obtain ⟨-, hparts⟩ := HostOp.frame_run h hreset hstep
  have herr : t.err = s.err := hparts .err (by simp)
  have hwait : t.wait = s.wait := hparts .wait (by simp)
  have hpc : t.pc = s.pc := hparts .pc (by simp)
  have hstack : t.sp = s.sp ∧ t.stack = s.stack := hparts .stack (by simp)
  exact hs.congr (HostOp.memWf_run hs.mem h hreset hstep) herr (by rw [herr, hwait]; exact hs.oneEngineState) hpc hstack.2

/-- The invariant holds of every state a machine can be in. -/
theorem Reachable.inv {s : State} (h : Reachable s) : Inv s := by
  induction h with
  | reset cfg draws => exact resetMeetsTheInvariant cfg draws
  | op o s t _ hrun ih => exact hostOperationsKeepTheInvariant o s t ih hrun

/-- Settles O55: the invariant's bounds, under which neither sum reaches 0x10000. -/
theorem reachablePcAndStackRange : Obligations.ReachablePcAndStackRange := by
  intro s h
  have hpc : s.pc.toNat ≤ 0x1100 := h.inv.pc
  exact ⟨hpc, h.inv.stack, s.advancePc_pc_toNat (by omega), s.ea_of_lt (by omega)⟩

theorem HostOp.oneEngineState_run {o : HostOp} {s t : State} (hs : s.err = none ∨ s.wait = none) (h : o.run s = .next t) :
    t.err = none ∨ t.wait = none := by
  by_cases hstep : o = .step
  · subst hstep; exact step_oneEngineState hs h
  by_cases hreset : o = .reset
  · subst hreset; cases h; exact .inl rfl
  obtain ⟨-, hparts⟩ := HostOp.frame_run h hreset hstep
  have herr : t.err = s.err := hparts .err (by simp)
  have hwait : t.wait = s.wait := hparts .wait (by simp)
  rw [herr, hwait]; exact hs

/-- Settles O56: by the invariant in a reachable state, and operation by operation from any state. -/
theorem neverHaltedAndWaiting : Obligations.NeverHaltedAndWaiting := by
  have hiff (s : State) : ¬ (s.err ≠ none ∧ s.wait ≠ none) ↔ (s.err = none ∨ s.wait = none) := by
    rw [← not_or, not_not]
  refine ⟨fun s h => (hiff s).2 h.inv.oneEngineState, fun o s t hs h => ?_⟩
  exact (hiff t).2 (HostOp.oneEngineState_run ((hiff s).1 hs) h)

/-! ### CHANGED (R33) -/

/-- From `s` to `t` CHANGED is set if a pixel has flipped, and it is not cleared. -/
structure FlipsMarked (s t : State) : Prop where
  flipped : (∃ row col, t.pixel row col ≠ s.pixel row col) → t.changed = true
  kept : s.changed = true → t.changed = true

theorem FlipsMarked.trans {s t u : State} (h : FlipsMarked s t) (h' : FlipsMarked t u) : FlipsMarked s u where
  kept := fun hs => h'.kept (h.kept hs)
  flipped := by
    rintro ⟨row, col, hne⟩
    by_cases ht : t.pixel row col = s.pixel row col
    · exact h'.flipped ⟨row, col, by rw [ht]; exact hne⟩
    · exact h'.kept (h.flipped ⟨row, col, ht⟩)

/-- What writes neither the display nor CHANGED flips nothing and clears nothing. -/
theorem FlipsMarked.of_frame {rs : List Reg} {ps : List Part} {s t : State} (h : Frame rs ps s t) (hdisp : Part.disp ∉ ps)
    (hchanged : Part.changed ∉ ps) : FlipsMarked s t where
  flipped := fun ⟨row, col, hne⟩ => absurd (h.2 .disp hdisp row col) hne
  kept := fun hs => (h.2 .changed hchanged : t.changed = s.changed).trans hs

/-- 00E0 flips the pixels that were lit (R170). -/
theorem flipsMarked_cls (s : State) : FlipsMarked s (s.markChanged s.anyLit).clearDisplay where
  kept := fun hs => by simp [hs]
  flipped := by
    rintro ⟨row, col, hne⟩
    have hlit : s.anyLit = true := s.anyLit_iff.2 ⟨row, col, by simpa using hne⟩
    simp [hlit]

theorem flipsMarked_blit (s : State) (x y : Reg) (n : Nat) : FlipsMarked s (s.blit x y n).1 where
  kept := fun hs => (s.blitted_blit x y n).changed.2 (.inl hs)
  flipped := fun ⟨row, col, hne⟩ =>
    (s.blitted_blit x y n).changed.2 (.inr ⟨row, col, ((s.blitted_blit x y n).pixels row col).1 hne⟩)

theorem exec_flipsMarked {i : Instr} {s t : State} (h : exec i s = .next t) : FlipsMarked s t := by
  cases i with
  | cls => cases h; exact flipsMarked_cls s
  | drw x y n =>
    cases h
    exact (flipsMarked_blit s x y n).trans (.of_frame (State.frame_writeFlag _ _) (by simp) (by simp))
  | _ => exact .of_frame (exec_frame h) (by simp [Instr.partWrites]) (by simp [Instr.partWrites])

theorem step_flipsMarked {s t : State} (h : step s = .next t) : FlipsMarked s t := by
  obtain ⟨_, rfl⟩ | ⟨u, hu, hi⟩ := step_cases s h
  · exact .of_frame (Frame.refl t) (by simp) (by simp)
  · have hbegin : FlipsMarked s u := .of_frame (s.frame_beginStep hu) (by simp) (by simp)
    obtain ⟨i, _, hx⟩ | ⟨e, _, rfl⟩ := hi
    · have hadv : FlipsMarked u u.advancePc := .of_frame u.frame_advancePc (by simp) (by simp)
      exact hbegin.trans (hadv.trans (exec_flipsMarked hx))
    · exact hbegin.trans (.of_frame u.frame_illegalOpcode (by simp) (by simp))

/-- Settles O38: STEP marks what it flips; no other operation but RESET writes the display, and none but CONSUME_CHANGED and
RESET writes CHANGED. -/
theorem changedIsSetOnFlipsAndNeverClearedByTheEngine :
    Obligations.ChangedIsSetOnFlipsAndNeverClearedByTheEngine := by
  intro o s t h hreset
  by_cases hstep : o = .step
  · subst hstep
    exact ⟨(step_flipsMarked h).flipped, fun _ => (step_flipsMarked h).kept⟩
  refine ⟨fun ⟨row, col, hne⟩ => ?_, fun hconsume => ?_⟩
  · exact absurd ((HostOp.frame_run h hreset hstep).2 .disp (by simp) row col) hne
  · exact (FlipsMarked.of_frame (HostOp.frame_run_of_ne_consumeChanged h hreset hstep hconsume) (by simp) (by simp)).kept

/-! ### Reading and resetting the state -/

/-- Settles O41: both operations answer from the state they leave. -/
theorem readErrorAndReadState : Obligations.ReadErrorAndReadState :=
  fun _ => ⟨rfl, rfl, rfl, congrArg Answer.error, fun _ _ => congrArg Answer.error⟩

/-- Memory after RESET, where no cell is listed: the font, and zero from 80 on (R39). -/
theorem State.memRead_resetWith (cfg : Config) (draws a : Nat) :
    (State.resetWith cfg draws).memRead a = Memory.unlisted cfg.font a := by
  by_cases ha : a < memSize
  · exact if_pos ha
  · have hfont : ¬ a < 80 := by unfold memSize at ha; omega
    rw [State.memRead_high _ (Nat.le_of_not_lt ha), Memory.unlisted, dif_neg hfont]

/-- Settles O48: RESET from any state, element by element. -/
theorem resetValues : Obligations.ResetValues := by
  intro s
  have hv : ∀ r, s.resetOp.readV r = 0 := fun _ => Vector.getElem_replicate _
  have hstack : ∀ k : Fin 16, s.resetOp.stack[k] = 0 := fun _ => Vector.getElem_replicate _
  have hkey : ∀ k, s.resetOp.readKey k = false := fun _ => Vector.getElem_replicate _
  have hpixel : ∀ row col, s.resetOp.pixel row col = false := State.pixel_clearDisplay s.resetOp
  have hmem : ∀ a, s.resetOp.memRead a = Memory.unlisted s.cfg.font a := State.memRead_resetWith _ _
  have hfont : ∀ (a : Nat) (h : a < 80), s.resetOp.memRead a = s.resetOp.cfg.font[a] :=
    fun a h => (hmem a).trans (dif_pos h)
  have hzero : ∀ a, 80 ≤ a → s.resetOp.memRead a = 0 := fun a h => (hmem a).trans (dif_neg (Nat.not_lt.2 h))
  exact ⟨s.resetOp, rfl, hv, rfl, rfl, hstack, rfl, rfl, rfl, hkey, rfl, hfont, hzero, hpixel, rfl, rfl, rfl, rfl, rfl⟩

/-! ### The registers an instruction reads (R24) -/

/-- The state with other general registers. -/
def State.withV (s : State) (v : Vector Byte 16) : State := { s with v := v }

section
variable (s : State) (v : Vector Byte 16)

theorem State.memWrite_withV (a : Nat) (b : Byte) : (s.withV v).memWrite a b = (s.memWrite a b).withV v := by
  by_cases h : a < memSize <;> simp [State.memWrite, State.withV, h]

theorem State.storeBcd_withV (b : Byte) : (s.withV v).storeBcd b = (s.storeBcd b).withV v := by
  have hea (k : Nat) : (s.withV v).ea (s.withV v).i k = s.ea s.i k := rfl
  simp only [State.storeBcd, hea, State.memWrite_withV]

theorem State.skipIf_withV (c : Bool) : (s.withV v).skipIf c = (s.skipIf c).withV v := by cases c <;> rfl

theorem State.push_withV (w : Word) : (s.withV v).push w = (s.push w).withV v := by
  by_cases h : s.sp.val < 16
  · rw [s.push_room h, (s.withV v).push_room h]; rfl
  · rw [s.push_full (by omega), (s.withV v).push_full (show s.sp.val = 16 by omega)]

theorem State.popPc_withV : (s.withV v).popPc = s.popPc.withV v := by
  by_cases h : 0 < s.sp.val
  · rw [s.popPc_some h, (s.withV v).popPc_some h]; rfl
  · rw [s.popPc_empty (by omega), (s.withV v).popPc_empty (show s.sp.val = 0 by omega)]

/-- The blit's running state, with other general registers. -/
def accWithV (acc : State × Bool) : State × Bool := (acc.1.withV v, acc.2)

theorem blitPixel_withV (px py : Nat) (bit : Bool) (acc : State × Bool) :
    blitPixel px py bit (accWithV v acc) = accWithV v (blitPixel px py bit acc) := by
  by_cases h : px < 64 ∧ py < 32
  · simp only [blitPixel, h, and_self, dite_true]; rfl
  · simp only [blitPixel, h, dite_false]

theorem blitRow_withV (sx py : Nat) (b : Byte) (acc : State × Bool) :
    blitRow sx py b (accWithV v acc) = accWithV v (blitRow sx py b acc) :=
  List.foldl_hom _ fun acc col => blitPixel_withV v (sx + col) py (spriteBit b col) acc

theorem blitRows_withV (sx sy n : Nat) (acc : State × Bool) :
    blitRows sx sy n (accWithV v acc) = accWithV v (blitRows sx sy n acc) :=
  List.foldl_hom _ fun acc row => blitRow_withV v sx (sy + row) (acc.1.memRead (acc.1.ea acc.1.i row)) acc

end

/-- `s'` is `s` but for the general registers, of which those of `rs` hold the same. -/
def AlikeOn (rs : List Reg) (s s' : State) : Prop := (∃ v, s' = s.withV v) ∧ ∀ r ∈ rs, s'.readV r = s.readV r

section
variable {rs : List Reg} {s s' : State}

theorem AlikeOn.mono {rs' : List Reg} (h : AlikeOn rs s s') (hsub : rs' ⊆ rs) : AlikeOn rs' s s' :=
  ⟨h.1, fun r hr => h.2 r (hsub hr)⟩

/-- What writes no register and reads none keeps two such states alike. -/
theorem AlikeOn.map (h : AlikeOn rs s s') (f : State → State) (hf : ∀ v, f (s.withV v) = (f s).withV v) :
    AlikeOn [] (f s) (f s') := by
  obtain ⟨⟨v, rfl⟩, -⟩ := h
  exact ⟨⟨v, hf v⟩, nofun⟩

/-- Writing one value to one register makes the states alike on it too. -/
theorem AlikeOn.writeV (h : AlikeOn rs s s') (r : Reg) (b : Byte) : AlikeOn (r :: rs) (s.writeV r b) (s'.writeV r b) := by
  obtain ⟨⟨v, rfl⟩, hread⟩ := h
  refine ⟨⟨v.set r b, rfl⟩, fun q hq => ?_⟩
  by_cases hqr : q = r
  · rw [hqr, State.readV_writeV_self, State.readV_writeV_self]
  · rw [State.readV_writeV_ne _ hqr, State.readV_writeV_ne _ hqr]
    exact hread q ((List.mem_cons.1 hq).resolve_left hqr)

theorem AlikeOn.takeDraw (h : AlikeOn rs s s') : AlikeOn rs s.takeDraw s'.takeDraw := by
  obtain ⟨⟨v, rfl⟩, hread⟩ := h
  exact ⟨⟨v, rfl⟩, hread⟩

theorem AlikeOn.memWrite (h : AlikeOn rs s s') (a : Nat) (b : Byte) : AlikeOn rs (s.memWrite a b) (s'.memWrite a b) := by
  obtain ⟨⟨v, rfl⟩, hread⟩ := h
  exact ⟨⟨v, s.memWrite_withV v a b⟩, fun r hr => by simpa using hread r hr⟩

theorem AlikeOn.ea_eq (h : AlikeOn rs s s') (k : Nat) : s'.ea s'.i k = s.ea s.i k := by
  obtain ⟨⟨v, rfl⟩, -⟩ := h
  rfl

theorem AlikeOn.readV (h : AlikeOn rs s s') (r : Reg) (hr : r ∈ rs := by simp [Instr.regReads]) :
    s'.readV r = s.readV r := h.2 r hr

theorem AlikeOn.keyPressed_eq (h : AlikeOn rs s s') (b : Byte) : s'.keyPressed b = s.keyPressed b := by
  obtain ⟨⟨v, rfl⟩, -⟩ := h
  rfl

theorem AlikeOn.dt_eq (h : AlikeOn rs s s') : s'.dt = s.dt := by
  obtain ⟨⟨v, rfl⟩, -⟩ := h
  rfl

theorem AlikeOn.draws_eq (h : AlikeOn rs s s') : s'.draws = s.draws := by
  obtain ⟨⟨v, rfl⟩, -⟩ := h
  rfl

theorem AlikeOn.memRead_eq (h : AlikeOn rs s s') (a : Nat) : s'.memRead a = s.memRead a := by
  obtain ⟨⟨v, rfl⟩, -⟩ := h
  rfl

theorem AlikeOn.storeRegs {l : List Reg} (h : AlikeOn rs s s') (hl : l ⊆ rs) :
    AlikeOn rs (s.storeRegs l) (s'.storeRegs l) := by
  induction l generalizing s s' with
  | nil => exact h
  | cons r l ih =>
    rw [State.storeRegs_cons, State.storeRegs_cons, h.ea_eq, h.2 r (hl (by simp))]
    exact ih (h.memWrite _ _) (List.subset_of_cons_subset hl)

theorem AlikeOn.loadRegs (l : List Reg) (h : AlikeOn rs s s') :
    AlikeOn (l.reverse ++ rs) (s.loadRegs l) (s'.loadRegs l) := by
  induction l generalizing rs s s' with
  | nil => exact h
  | cons r l ih =>
    rw [State.loadRegs_cons, State.loadRegs_cons, h.ea_eq, h.memRead_eq, List.reverse_cons, List.append_assoc]
    exact ih (h.writeV _ _)

/-- A blit whose origin is the same draws the same and collides the same. -/
theorem AlikeOn.blit {x y : Reg} (h : AlikeOn [x, y] s s') (n : Nat) :
    AlikeOn [] (s.blit x y n).1 (s'.blit x y n).1 ∧ (s'.blit x y n).2 = (s.blit x y n).2 := by
  obtain ⟨⟨v, rfl⟩, hread⟩ := h
  have hblit : (s.withV v).blit x y n = accWithV v (s.blit x y n) := by
    rw [State.blit, hread x (by simp), hread y (by simp)]
    exact blitRows_withV v _ _ n (s, false)
  rw [hblit]
  exact ⟨⟨⟨v, rfl⟩, nofun⟩, rfl⟩

end

/-- The shifts read the one register that SHIFT_SRC names (R130, R132). -/
theorem regReads_shr (s : State) (x y : Reg) : (Instr.shr x y).regReads s.cfg.shiftSrc = [s.shiftReg x y] := by
  unfold Instr.regReads State.shiftReg; cases s.cfg.shiftSrc <;> rfl

theorem AlikeOn.readV_shiftReg {s s' : State} {x y : Reg} (h : AlikeOn ((Instr.shr x y).regReads s.cfg.shiftSrc) s s') :
    s'.readV (s'.shiftReg x y) = s.readV (s.shiftReg x y) := by
  have hread := h.2 (s.shiftReg x y) (by simp [regReads_shr])
  obtain ⟨⟨v, rfl⟩, -⟩ := h
  exact hread

/-- From two states alike on the registers an instruction reads it leads to two alike on those it writes: first the values it
has read are the same, then each of its writes keeps the states alike. -/
theorem exec_alikeOn {i : Instr} {s s' t : State} (h : AlikeOn (i.regReads s.cfg.shiftSrc) s s') (hx : exec i s = .next t) :
    ∃ t', exec i s' = .next t' ∧ AlikeOn i.regWrites t t' := by
  cases i with
  | cls => cases hx; exact ⟨_, rfl, h.map (fun s => (s.markChanged s.anyLit).clearDisplay) fun _ => rfl⟩
  | ret => cases hx; exact ⟨_, rfl, h.map State.popPc s.popPc_withV⟩
  | jp => cases hx; exact ⟨_, rfl, h.map (·.writePc _) fun _ => rfl⟩
  | call nnn =>
    cases hx
    exact ⟨_, rfl, h.map (fun s => (s.push s.pc).writePc (zext16 nnn)) fun v =>
      congrArg (·.writePc (zext16 nnn)) (s.push_withV v s.pc)⟩
  | seImm x | sneImm x =>
    cases hx
    refine ⟨_, rfl, ?_⟩
    rw [h.readV x]
    exact h.map (·.skipIf _) fun v => s.skipIf_withV v _
  | seReg x y | sneReg x y =>
    cases hx
    refine ⟨_, rfl, ?_⟩
    rw [h.readV x, h.readV y]
    exact h.map (·.skipIf _) fun v => s.skipIf_withV v _
  | skp x | sknp x =>
    cases hx
    refine ⟨_, rfl, ?_⟩
    rw [h.readV x, h.keyPressed_eq]
    exact h.map (·.skipIf _) fun v => s.skipIf_withV v _
  | ldImm => cases hx; exact ⟨_, rfl, (h.writeV _ _).mono (by simp [Instr.regWrites])⟩
  | addImm z | ldReg _ z =>
    cases hx
    refine ⟨_, rfl, ?_⟩
    rw [h.readV z]
    exact (h.writeV _ _).mono (by simp [Instr.regWrites])
  | orReg x y | andReg x y | xorReg x y =>
    cases hx
    refine ⟨_, rfl, ?_⟩
    rw [h.readV x, h.readV y]
    exact (h.writeV _ _).mono (by simp [Instr.regWrites])
  | addReg x y | subReg x y | subn x y =>
    cases hx
    refine ⟨_, rfl, ?_⟩
    rw [h.readV x, h.readV y]
    exact ((h.writeV _ _).writeV vf _).mono (by simp [Instr.regWrites])
  | shr | shl =>
    cases hx
    refine ⟨_, rfl, ?_⟩
    rw [h.readV_shiftReg]
    exact ((h.writeV _ _).writeV vf _).mono (by simp [Instr.regWrites])
  | ldI => cases hx; exact ⟨_, rfl, h.map (·.writeI _) fun _ => rfl⟩
  | jpV0 =>
    cases hx
    refine ⟨_, rfl, ?_⟩
    rw [h.readV 0]
    exact h.map (·.writePc _) fun _ => rfl
  | rnd =>
    cases hx
    refine ⟨_, rfl, ?_⟩
    rw [h.draws_eq]
    exact (h.writeV _ _).takeDraw.mono (by simp [Instr.regWrites])
  | drw x y n =>
    cases hx
    obtain ⟨hdrawn, hcollided⟩ := h.blit n
    refine ⟨_, rfl, ?_⟩
    rw [hcollided]
    exact hdrawn.writeV vf _
  | ldVxDT =>
    cases hx
    refine ⟨_, rfl, ?_⟩
    rw [h.dt_eq]
    exact (h.writeV _ _).mono (by simp [Instr.regWrites])
  | ldVxK => cases hx; exact ⟨_, rfl, h.map (·.writeWait _) fun _ => rfl⟩
  | ldDTVx x =>
    cases hx
    refine ⟨_, rfl, ?_⟩
    rw [h.readV x]
    exact h.map (·.writeDT _) fun _ => rfl
  | ldSTVx x =>
    cases hx
    refine ⟨_, rfl, ?_⟩
    rw [h.readV x]
    exact h.map (·.writeST _) fun _ => rfl
  | addI x =>
    cases hx
    refine ⟨_, rfl, ?_⟩
    rw [h.readV x]
    exact h.map (fun u => u.writeI (trunc16 (u.i.toNat + (s.readV x).toNat))) fun _ => rfl
  | ldF x =>
    cases hx
    refine ⟨_, rfl, ?_⟩
    rw [h.readV x]
    exact h.map (·.writeI _) fun _ => rfl
  | ldB x =>
    cases hx
    refine ⟨_, rfl, ?_⟩
    rw [h.readV x]
    exact h.map (·.storeBcd _) fun v => s.storeBcd_withV v _
  | stRegs x => cases hx; exact ⟨_, rfl, (h.storeRegs (List.Subset.refl _)).mono (by simp [Instr.regWrites])⟩
  | ldRegs x => cases hx; exact ⟨_, rfl, (h.loadRegs _).mono (by simp [Instr.regWrites])⟩

/-- Settles O58: the two states of R24's table are alike on what the instruction reads. -/
theorem instructionsReadOnlyTheirRegisters : Obligations.InstructionsReadOnlyTheirRegisters := by
  intro i s t s' v' hs' hread hx
  obtain ⟨t', hx', ⟨v, rfl⟩, hw⟩ := exec_alikeOn ⟨⟨v', hs'⟩, hread⟩ hx
  exact ⟨_, hx', rfl, hw⟩

/-! ### The canonical form of memory (R30, R59) -/

/-- Below its first cell a canonical memory reads as unlisted. -/
theorem Memory.read_below_head {font : Vector Byte 80} {lo a : Nat} {c : Host.Cell} {m : List Host.Cell}
    (h : Memory.wfFrom font lo (c :: m) = true) (ha : a < c.1) :
    Memory.read font (c :: m) a = Memory.unlisted font a := by
  obtain ⟨-, hrest⟩ := (Memory.wfFrom_cons font).1 h
  exact Memory.read_below font ((Memory.wfFrom_cons font).2 ⟨le_refl c.1, hrest⟩) ha

theorem Memory.read_head (font : Vector Byte 80) (c : Host.Cell) (m : List Host.Cell) :
    Memory.read font (c :: m) c.1 = c.2 := if_pos rfl

/-- A canonical memory with a cell does not read as unlisted at that cell. -/
theorem Memory.head_listed {font : Vector Byte 80} {lo : Nat} {c : Host.Cell} {m : List Host.Cell}
    (h : Memory.wfFrom font lo (c :: m) = true) : Memory.read font (c :: m) c.1 ≠ Memory.unlisted font c.1 := by
  obtain ⟨-, -, hne, -⟩ := (Memory.wfFrom_cons font).1 h
  rw [Memory.read_head]; exact hne

/-- Of two canonical memories that read alike, neither has its first cell below the other's. -/
theorem Memory.head_le {font : Vector Byte 80} {lo : Nat} {c d : Host.Cell} {m m' : List Host.Cell}
    (h : Memory.wfFrom font lo (c :: m) = true) (h' : Memory.wfFrom font lo (d :: m') = true)
    (hread : ∀ a, Memory.read font (c :: m) a = Memory.read font (d :: m') a) : d.1 ≤ c.1 := by
  by_contra hlt
  exact Memory.head_listed h ((hread c.1).trans (Memory.read_below_head h' (by omega)))

theorem Memory.eq_of_read_eq {font : Vector Byte 80} {lo : Nat} {m m' : List Host.Cell}
    (h : Memory.wfFrom font lo m = true) (h' : Memory.wfFrom font lo m' = true)
    (hread : ∀ a, Memory.read font m a = Memory.read font m' a) : m = m' := by
  induction m generalizing lo m' with
  | nil =>
    cases m' with
    | nil => rfl
    | cons d m' => exact absurd (hread d.1).symm (Memory.head_listed h')
  | cons c m ih =>
    cases m' with
    | nil => exact absurd (hread c.1) (Memory.head_listed h)
    | cons d m' =>
      have haddr : c.1 = d.1 := le_antisymm (Memory.head_le h' h fun a => (hread a).symm) (Memory.head_le h h' hread)
      have hbyte : c.2 = d.2 := by
        rw [← Memory.read_head font c m, hread, haddr, Memory.read_head]
      obtain rfl : c = d := Prod.ext haddr hbyte
      obtain ⟨-, -, -, hm⟩ := (Memory.wfFrom_cons font).1 h
      obtain ⟨-, -, -, hm'⟩ := (Memory.wfFrom_cons font).1 h'
      refine congrArg (c :: ·) (ih hm hm' fun a => ?_)
      by_cases ha : a < c.1 + 1
      · rw [Memory.read_below font hm ha, Memory.read_below font hm' ha]
      · have hne : ¬ c.1 = a := by omega
        have hcons (l : List Host.Cell) : Memory.read font (c :: l) a = Memory.read font l a := if_neg hne
        rw [← hcons m, ← hcons m', hread]

/-- Settles O59, by induction along the two lists: their first cells agree, because a memory reads as unlisted below its
first cell and not at it. -/
theorem canonicalMemoriesThatReadAlikeAreEqual : Obligations.CanonicalMemoriesThatReadAlikeAreEqual :=
  fun _ _ _ => Memory.eq_of_read_eq

end Sys2Proof.Machine
end

section
/-! PROOFS. The memory family (20_memory.md): the fetch and its dispatch, address sums under ADDR_SUM, the fetch at the end
of memory, and the coherence of stores with the fetch. -/

namespace Sys2Proof.Machine

/-! ### The fetch and its dispatch (R55, R82, R83) -/

/-- PC + 2 modulo 65536 (R82), as an addition of words. -/
theorem State.advancePc_eq (s : State) : s.advancePc = s.writePc (s.pc + 2) := by
  rw [State.advancePc, trunc16, BitVec.ofNat_add, BitVec.ofNat_toNat, BitVec.setWidth_eq]
  rfl

/-- Where PC + 1 does not wrap, the opcode is the bytes at PC and PC + 1 under either setting of ADDR_SUM. -/
theorem State.fetchOpcode_of_lt (s : State) (hpc : s.pc.toNat < 0xFFFF) :
    s.fetchOpcode = opcodeOfBytes (s.memRead s.pc.toNat) (s.memRead (s.pc.toNat + 1)) := by
  rw [State.fetchOpcode_eq, s.ea_of_lt (by omega)]

/-- Every instruction the decoder gives is one the encoding can hold: a row count comes from four bits (R72). -/
theorem decode_wellFormed {op : Word} {i : Instr} (h : decode op = .ok i) : i.wellFormed = true := by
  unfold decode decodeSys decodeSeReg decodeAlu decodeSneReg decodeKey decodeMisc at h
  have hn : (opN op).toNat ≤ 15 := Nat.le_of_lt_succ (opN op).isLt
  repeat' split at h
  all_goals cases h
  all_goals simp [Instr.wellFormed, hn]

/-- Settles O5: a Running machine's step begins with the state as it is. -/
theorem stepRunsTheDecodedInstruction : Obligations.StepRunsTheDecodedInstruction := by
  intro s op hrun hop
  obtain ⟨herr, hwait⟩ := s.engine_running_iff.1 hrun
  have hbegin : s.beginStep = some s := s.beginStep_running herr hwait
  have hfetch : s.fetchOpcode = op := hop.symm
  refine ⟨fun i hd => ?_, fun e hd => ?_⟩
  · rw [step_of_some s hbegin (hfetch ▸ hd), State.advancePc_eq]
  · rw [step_of_illegal s hbegin (hfetch ▸ hd), State.illegalOpcode, State.advancePc_eq, hfetch]

/-! ### Address sums (R51 to R53) -/

/-- Settles O13: below the wrap both settings give the exact sum; past it the exact sum lies above memory. -/
theorem addressSum : Obligations.AddressSum := by
  intro s base k
  refine ⟨fun hw => s.ea_wrap16 hw base k, fun hu => s.ea_unbounded hu base k, fun u hle => ?_, fun hw hk hgt => ?_,
    fun hu hgt => ?_⟩
  · rw [u.ea_of_lt (by omega), s.ea_of_lt (by omega)]
  · have hbase := base.isLt
    rw [s.ea_wrap16 hw]; omega
  · have hhigh : memSize ≤ s.ea base k := by rw [s.ea_unbounded hu, memSize]; omega
    exact ⟨s.memRead_high hhigh, s.memWrite_high hhigh⟩

/-! ### The fetch at the end of memory (R57) -/

/-- From 0x1000 on, up to where PC + 1 may wrap, both bytes of the opcode read 0. -/
theorem State.fetchOpcode_high (s : State) (hlo : 0x1000 ≤ s.pc.toNat) (hhi : s.pc.toNat < 0xFFFF) :
    s.fetchOpcode = 0x0000 := by
  rw [s.fetchOpcode_of_lt hhi, s.memRead_high hlo, s.memRead_high (Nat.le_succ_of_le hlo)]
  rfl

/-- Settles O12: at 0x1000 and above the opcode is 0x0000, which is illegal; at 0xFFF the low byte lies above memory. -/
theorem fetchOutsideMemoryHalts : Obligations.FetchOutsideMemoryHalts := by
  intro s hrun
  obtain ⟨herr, hwait⟩ := s.engine_running_iff.1 hrun
  refine ⟨fun hlo hhi => ?_, fun hpc => ?_⟩
  · have hfetch : s.fetchOpcode = 0x0000 := s.fetchOpcode_high hlo (by omega)
    have hillegal : decode s.fetchOpcode = .error .notClsOrRet := by rw [hfetch]; decide
    refine ⟨s.illegalOpcode, step_of_illegal s (s.beginStep_running herr hwait) hillegal, ?_⟩
    rw [← hfetch]; rfl
  · have hlow : s.memRead 0x1000 = 0x00 := s.memRead_high (le_refl memSize)
    rw [s.fetchOpcode_of_lt (by rw [hpc]; decide), hpc]
    exact congrArg (opcodeOfBytes (s.memRead 0xFFF)) hlow

/-! ### Stores and the fetch (R64) -/

/-- Fx55 leaves V[k] at I + k, inside memory. -/
theorem State.memRead_storeRegs_regsUpTo (s : State) {x k : Reg} (hk : k ≤ x) (ha : s.i.toNat + k.val < memSize) :
    (s.storeRegs (regsUpTo x)).memRead (s.i.toNat + k.val) = s.readV k := by
  have hea : s.ea s.i k.val = s.i.toNat + k.val := s.ea_of_lt (by unfold memSize at ha; omega)
  rw [← hea] at ha ⊢
  exact s.memRead_storeRegs_at (regsUpTo_nodup x) ((mem_regsUpTo x k).2 hk) ha

/-- Settles O34: the fetch reads the addresses I + j and I + j + 1, where Fx55 has left V[j] and V[j + 1]. -/
theorem fetchSeesStoredBytes : Obligations.FetchSeesStoredBytes := by
  intro x j k s t hjk hkx hlt h
  cases h
  have hpc : (s.i + BitVec.ofNat 16 j.val).toNat = s.i.toNat + j.val := by
    rw [BitVec.toNat_add, BitVec.toNat_ofNat]; omega
  have hjx : j ≤ x := le_trans (Fin.le_def.2 (by omega)) hkx
  have hj := s.memRead_storeRegs_regsUpTo hjx (by unfold memSize; omega)
  have hk := s.memRead_storeRegs_regsUpTo hkx hlt
  rw [State.fetchOpcode_of_lt _ (by rw [State.writePc_pc]; omega), State.writePc_pc, hpc, Nat.add_assoc, ← hjk,
    State.writePc_memRead, State.writePc_memRead, hj, hk]
  rfl

/-! ### The two settings of ADDR_SUM below the wrap (R51) -/

/-- The state with the other setting `m` of ADDR_SUM. -/
def State.withAddrSum (s : State) (m : AddrSum) : State := { s with cfg := { s.cfg with addrSum := m } }

section
variable (s : State) (m : AddrSum)

theorem State.ea_withAddrSum {base : Word} {k : Nat} (h : base.toNat + k < 65536) :
    (s.withAddrSum m).ea base k = s.ea base k := by
  rw [State.ea_of_lt _ h, s.ea_of_lt h]

theorem State.memWrite_withAddrSum (a : Nat) (b : Byte) :
    (s.withAddrSum m).memWrite a b = (s.memWrite a b).withAddrSum m := by
  by_cases h : a < memSize <;> simp [State.memWrite, State.withAddrSum, h]

theorem State.skipIf_withAddrSum (c : Bool) : (s.withAddrSum m).skipIf c = (s.skipIf c).withAddrSum m := by
  cases c <;> rfl

theorem State.push_withAddrSum (w : Word) : (s.withAddrSum m).push w = (s.push w).withAddrSum m := by
  by_cases h : s.sp.val < 16
  · rw [s.push_room h, (s.withAddrSum m).push_room h]; rfl
  · rw [s.push_full (by omega), (s.withAddrSum m).push_full (show s.sp.val = 16 by omega)]

theorem State.popPc_withAddrSum : (s.withAddrSum m).popPc = s.popPc.withAddrSum m := by
  by_cases h : 0 < s.sp.val
  · rw [s.popPc_some h, (s.withAddrSum m).popPc_some h]; rfl
  · rw [s.popPc_empty (by omega), (s.withAddrSum m).popPc_empty (show s.sp.val = 0 by omega)]

/-! The transfers and the blit, whose addresses are at most I + 15. -/

variable {s}

theorem State.ea_i_withAddrSum (hi : s.i.toNat < 0xFFF1) {k : Nat} (hk : k < 16) :
    (s.withAddrSum m).ea (s.withAddrSum m).i k = s.ea s.i k :=
  s.ea_withAddrSum m (show s.i.toNat + k < 65536 by omega)

theorem State.storeBcd_withAddrSum (hi : s.i.toNat < 0xFFF1) (b : Byte) :
    (s.withAddrSum m).storeBcd b = (s.storeBcd b).withAddrSum m := by
  simp only [State.storeBcd, State.ea_i_withAddrSum m hi (show 0 < 16 by decide),
    State.ea_i_withAddrSum m hi (show 1 < 16 by decide), State.ea_i_withAddrSum m hi (show 2 < 16 by decide),
    State.memWrite_withAddrSum]

theorem State.storeRegs_withAddrSum (hi : s.i.toNat < 0xFFF1) (rs : List Reg) :
    (s.withAddrSum m).storeRegs rs = (s.storeRegs rs).withAddrSum m := by
  induction rs generalizing s with
  | nil => rfl
  | cons r rs ih =>
    rw [State.storeRegs_cons, State.storeRegs_cons, State.ea_i_withAddrSum m hi r.isLt, State.memWrite_withAddrSum]
    exact ih (by rwa [State.memWrite_i])

theorem State.loadRegs_withAddrSum (hi : s.i.toNat < 0xFFF1) (rs : List Reg) :
    (s.withAddrSum m).loadRegs rs = (s.loadRegs rs).withAddrSum m := by
  induction rs generalizing s with
  | nil => rfl
  | cons r rs ih =>
    rw [State.loadRegs_cons, State.loadRegs_cons, State.ea_i_withAddrSum m hi r.isLt]
    exact ih (s := s.writeV r (s.memRead (s.ea s.i r.val))) hi

/-- The blit's running state, with the other setting. -/
def accWithAddrSum (acc : State × Bool) : State × Bool := (acc.1.withAddrSum m, acc.2)

theorem blitPixel_withAddrSum (px py : Nat) (bit : Bool) (acc : State × Bool) :
    blitPixel px py bit (accWithAddrSum m acc) = accWithAddrSum m (blitPixel px py bit acc) := by
  by_cases h : px < 64 ∧ py < 32
  · simp only [blitPixel, h, and_self, dite_true]; rfl
  · simp only [blitPixel, h, dite_false]

theorem blitRow_withAddrSum (sx py : Nat) (b : Byte) (acc : State × Bool) :
    blitRow sx py b (accWithAddrSum m acc) = accWithAddrSum m (blitRow sx py b acc) :=
  List.foldl_hom _ fun acc col => blitPixel_withAddrSum m (sx + col) py (spriteBit b col) acc

/-- Drawing one row more, as a step of its own. -/
theorem blitRows_succ (sx sy n : Nat) (acc : State × Bool) :
    blitRows sx sy (n + 1) acc =
      blitRow sx (sy + n) ((blitRows sx sy n acc).1.memRead ((blitRows sx sy n acc).1.ea (blitRows sx sy n acc).1.i n))
        (blitRows sx sy n acc) := by
  rw [blitRows, List.range_succ, List.foldl_append]; rfl

/-- The rows drawn so far leave I as it is, so the next row's address is below the wrap too. -/
theorem blitRows_withAddrSum (sx sy n : Nat) (acc : State × Bool) (hi : acc.1.i.toNat + n ≤ 65536) :
    blitRows sx sy n (accWithAddrSum m acc) = accWithAddrSum m (blitRows sx sy n acc) := by
  induction n with
  | zero => rfl
  | succ n ih =>
    have hkeep : (blitRows sx sy n acc).1.i = acc.1.i := (frame_blitRows sx sy n acc).2 .i (by simp)
    have hea : ((blitRows sx sy n acc).1.withAddrSum m).ea (blitRows sx sy n acc).1.i n =
        (blitRows sx sy n acc).1.ea (blitRows sx sy n acc).1.i n :=
      State.ea_withAddrSum _ m (by rw [hkeep]; omega)
    rw [blitRows_succ, blitRows_succ, ih (by omega), ← blitRow_withAddrSum, ← hea]
    rfl

theorem State.blit_withAddrSum (x y : Reg) {n : Nat} (hi : s.i.toNat + n ≤ 65536) :
    (s.withAddrSum m).blit x y n = accWithAddrSum m (s.blit x y n) :=
  blitRows_withAddrSum m _ _ n (s, false) hi

/-- Of the instructions only the transfers and the blit form an address sum, the blit of a decoded instruction with at most
15 rows. -/
theorem exec_withAddrSum {i : Instr} {t : State} (hwf : i.wellFormed = true) (hi : s.i.toNat < 0xFFF1)
    (h : exec i s = .next t) : exec i (s.withAddrSum m) = .next (t.withAddrSum m) := by
  cases i with
  | ret => cases h; exact congrArg _ (s.popPc_withAddrSum m)
  | call nnn => cases h; exact congrArg (fun u => Host.Outcome.next (u.writePc (zext16 nnn))) (s.push_withAddrSum m s.pc)
  | seImm | sneImm | seReg | sneReg | skp | sknp => cases h; exact congrArg _ (s.skipIf_withAddrSum m _)
  | drw x y n =>
    cases h
    have hn : n ≤ 15 := of_decide_eq_true hwf
    rw [exec, execDrw, State.blit_withAddrSum m x y (by omega)]
    rfl
  | ldB => cases h; exact congrArg _ (State.storeBcd_withAddrSum m hi _)
  | stRegs => cases h; exact congrArg _ (State.storeRegs_withAddrSum m hi _)
  | ldRegs => cases h; exact congrArg _ (State.loadRegs_withAddrSum m hi _)
  | _ => cases h; rfl

theorem State.fetchOpcode_withAddrSum (hpc : s.pc.toNat < 0xFFFF) : (s.withAddrSum m).fetchOpcode = s.fetchOpcode := by
  rw [State.fetchOpcode_of_lt _ hpc, State.fetchOpcode_of_lt (s.withAddrSum m) hpc]
  rfl

theorem State.beginStep_withAddrSum :
    (s.withAddrSum m).beginStep = s.beginStep.map (fun u => u.withAddrSum m) := by
  cases herr : s.err with
  | some e =>
    have hne : s.err ≠ none := by simp [herr]
    rw [s.beginStep_halted hne, (s.withAddrSum m).beginStep_halted hne]; rfl
  | none =>
    cases hwait : s.wait with
    | none => rw [s.beginStep_running herr hwait, (s.withAddrSum m).beginStep_running herr hwait]; rfl
    | some x =>
      rw [s.beginStep_waiting herr hwait, (s.withAddrSum m).beginStep_waiting herr hwait, Option.map_map]; rfl

end

/-- Settles O14: the fetch and every address of the instruction lie below the wrap, so each part of the step gives the same
under both settings. -/
theorem addrSumIsInvisibleBelowTheWrap : Obligations.AddrSumIsInvisibleBelowTheWrap := by
  intro s t m hi hpc h
  change step (s.withAddrSum m) = .next (t.withAddrSum m)
  obtain ⟨hnone, rfl⟩ | ⟨u, hu, hu'⟩ := step_cases s h
  · exact step_of_none _ (by rw [State.beginStep_withAddrSum, hnone]; rfl)
  · have hbegin : (s.withAddrSum m).beginStep = some (u.withAddrSum m) := by
      rw [State.beginStep_withAddrSum, hu]; rfl
    have hframe := (s.frame_beginStep hu).2
    have hui : u.i = s.i := hframe .i (by simp)
    have hupc : u.pc = s.pc := hframe .pc (by simp)
    have hfetch : (u.withAddrSum m).fetchOpcode = u.fetchOpcode := State.fetchOpcode_withAddrSum m (by rwa [hupc])
    obtain ⟨i, hd, hx⟩ | ⟨e, hd, rfl⟩ := hu'
    · rw [step_of_some _ hbegin (i := i) (by rw [hfetch, hd])]
      exact exec_withAddrSum m (decode_wellFormed hd) (by rwa [State.advancePc_i, hui]) hx
    · rw [step_of_illegal _ hbegin (e := e) (by rw [hfetch, hd]), State.illegalOpcode, hfetch]
      rfl

end Sys2Proof.Machine
end

section
/-! PROOFS. The encoding family (30_encoding.md): decoding and encoding are inverse, the illegal opcodes, the key-wait
and the Halted state at the beginning of a step, the instruction that withFetchWord places, and which steps take a
random draw. -/

namespace Sys2Proof

/-! ### Decoding an encoding (R73, R74) -/

/-- The row count of a well-formed Dxyn fits its nibble (R72). -/
theorem rowCount_nibble {n : Nat} (h : n ≤ 15) : (BitVec.ofNat 4 n).toNat = n :=
  Nat.mod_eq_of_lt (Nat.lt_succ_of_le h)

/-- The major opcode of the encoding selects the row, and in it the selector, where the row has one, the instruction. -/
theorem decode_encode {i : Instr} (h : i.wellFormed = true) : decode (encode i) = .ok i := by
  cases i with
  | cls | ret => rfl
  | jp | call | ldI | jpV0 => simp [encode, decode]
  | seImm | sneImm | ldImm | addImm | rnd => simp [encode, decode]
  | seReg | sneReg => simp [encode, decode, decodeSeReg, decodeSneReg]
  | ldReg | orReg | andReg | xorReg | addReg | subReg | shr | subn | shl => simp [encode, decode, decodeAlu]
  | drw x y n =>
    have hn : n ≤ 15 := of_decide_eq_true h
    simp [encode, decode, rowCount_nibble hn]
  | skp | sknp => simp [encode, decode, decodeKey]
  | ldVxDT | ldVxK | ldDTVx | ldSTVx | addI | ldF | ldB | stRegs | ldRegs => simp [encode, decode, decodeMisc]

/-- Settles O2: by the format of each instruction's encoding. -/
theorem decodeOfEncodeIsTheInstruction : Obligations.DecodeOfEncodeIsTheInstruction := fun _ => decode_encode

/-! ### Encoding what was decoded (R74, R75) -/

/-! An opcode is a word of each format that its major opcode heads. -/

theorem wordNNN_of_opA {op : Word} {a : Nibble} (ha : opA op = a) : wordNNN a (opNNN op) = op :=
  ha ▸ wordNNN_fields op

theorem wordXNN_of_opA {op : Word} {a : Nibble} (ha : opA op = a) : wordXNN a (regOf (opX op)) (opNN op) = op :=
  ha ▸ wordXNN_fields op

theorem wordXYN_of_opA {op : Word} {a : Nibble} (ha : opA op = a) :
    wordXYN a (regOf (opX op)) (regOf (opY op)) (opN op) = op :=
  ha ▸ wordXYN_fields op

/-! What a row with selectors decodes to encodes to the word with that selector. -/

theorem encode_of_decodeSys {op : Word} {i : Instr} (h : decodeSys op = .ok i) : encode i = op := by
  unfold decodeSys at h
  split at h
  all_goals cases h
  all_goals rename_i hop; exact BitVec.eq_of_toNat_eq hop.symm

theorem encode_of_decodeSeReg {x y n : Nibble} {i : Instr} (h : decodeSeReg x y n = .ok i) :
    encode i = wordXYN 0x5#4 (regOf x) (regOf y) n := by
  unfold decodeSeReg at h
  split at h
  all_goals cases h
  rename_i hn; exact congrArg (wordXYN _ _ _) (BitVec.eq_of_toNat_eq hn.symm)

theorem encode_of_decodeAlu {x y n : Nibble} {i : Instr} (h : decodeAlu x y n = .ok i) :
    encode i = wordXYN 0x8#4 (regOf x) (regOf y) n := by
  unfold decodeAlu at h
  split at h
  all_goals cases h
  all_goals rename_i hn; exact congrArg (wordXYN _ _ _) (BitVec.eq_of_toNat_eq hn.symm)

theorem encode_of_decodeSneReg {x y n : Nibble} {i : Instr} (h : decodeSneReg x y n = .ok i) :
    encode i = wordXYN 0x9#4 (regOf x) (regOf y) n := by
  unfold decodeSneReg at h
  split at h
  all_goals cases h
  rename_i hn; exact congrArg (wordXYN _ _ _) (BitVec.eq_of_toNat_eq hn.symm)

theorem encode_of_decodeKey {x : Nibble} {nn : Byte} {i : Instr} (h : decodeKey x nn = .ok i) :
    encode i = wordXNN 0xE#4 (regOf x) nn := by
  unfold decodeKey at h
  split at h
  all_goals cases h
  all_goals rename_i hnn; exact congrArg (wordXNN _ _) (BitVec.eq_of_toNat_eq hnn.symm)

theorem encode_of_decodeMisc {x : Nibble} {nn : Byte} {i : Instr} (h : decodeMisc x nn = .ok i) :
    encode i = wordXNN 0xF#4 (regOf x) nn := by
  unfold decodeMisc at h
  split at h
  all_goals cases h
  all_goals rename_i hnn; exact congrArg (wordXNN _ _) (BitVec.eq_of_toNat_eq hnn.symm)

/-- The ten rows of R74 with one instruction each: every opcode is one, its operands the fields of the row's format. -/
theorem decode_oneInstrRow {op : Word}
    (ha : opA op ∈ ([0x1, 0x2, 0x3, 0x4, 0x6, 0x7, 0xA, 0xB, 0xC, 0xD] : List Nibble)) :
    ∃ i, decode op = .ok i ∧ encode i = op := by
  simp only [List.mem_cons, List.not_mem_nil, or_false] at ha
  obtain ha | ha | ha | ha | ha | ha | ha | ha | ha | ha := ha
  · exact ⟨.jp (opNNN op), by simp [decode, ha], wordNNN_of_opA ha⟩
  · exact ⟨.call (opNNN op), by simp [decode, ha], wordNNN_of_opA ha⟩
  · exact ⟨.seImm (regOf (opX op)) (opNN op), by simp [decode, ha], wordXNN_of_opA ha⟩
  · exact ⟨.sneImm (regOf (opX op)) (opNN op), by simp [decode, ha], wordXNN_of_opA ha⟩
  · exact ⟨.ldImm (regOf (opX op)) (opNN op), by simp [decode, ha], wordXNN_of_opA ha⟩
  · exact ⟨.addImm (regOf (opX op)) (opNN op), by simp [decode, ha], wordXNN_of_opA ha⟩
  · exact ⟨.ldI (opNNN op), by simp [decode, ha], wordNNN_of_opA ha⟩
  · exact ⟨.jpV0 (opNNN op), by simp [decode, ha], wordNNN_of_opA ha⟩
  · exact ⟨.rnd (regOf (opX op)) (opNN op), by simp [decode, ha], wordXNN_of_opA ha⟩
  · refine ⟨.drw (regOf (opX op)) (regOf (opY op)) (opN op).toNat, by simp [decode, ha], ?_⟩
    rw [encode, BitVec.ofNat_toNat, BitVec.setWidth_eq]
    exact wordXYN_of_opA ha

/-- The major-opcode map of R74: six rows go on to a selector, and in the other ten every opcode is an instruction. -/
theorem decode_rows (op : Word) :
    (opA op = 0x0 ∧ decode op = decodeSys op) ∨
    (opA op = 0x5 ∧ decode op = decodeSeReg (opX op) (opY op) (opN op)) ∨
    (opA op = 0x8 ∧ decode op = decodeAlu (opX op) (opY op) (opN op)) ∨
    (opA op = 0x9 ∧ decode op = decodeSneReg (opX op) (opY op) (opN op)) ∨
    (opA op = 0xE ∧ decode op = decodeKey (opX op) (opNN op)) ∨
    (opA op = 0xF ∧ decode op = decodeMisc (opX op) (opNN op)) ∨
    (opA op ∉ ([0x0, 0x5, 0x8, 0x9, 0xE, 0xF] : List Nibble) ∧ ∃ i, decode op = .ok i ∧ encode i = op) := by
  have hother : ∀ a : Nibble, a ∉ ([0x0, 0x5, 0x8, 0x9, 0xE, 0xF] : List Nibble) →
      a ∈ ([0x1, 0x2, 0x3, 0x4, 0x6, 0x7, 0xA, 0xB, 0xC, 0xD] : List Nibble) := by decide
  by_cases ha : opA op ∈ ([0x0, 0x5, 0x8, 0x9, 0xE, 0xF] : List Nibble)
  · simp only [List.mem_cons, List.not_mem_nil, or_false] at ha
    obtain ha | ha | ha | ha | ha | ha := ha <;> simp [decode, ha]
  · simp only [ha, not_false_eq_true, true_and, decode_oneInstrRow (hother _ ha), or_true]

/-- Every row of the major-opcode map loses no bit of the opcode. -/
theorem encode_of_decode {op : Word} {i : Instr} (h : decode op = .ok i) : encode i = op := by
  obtain ⟨ha, hd⟩ | ⟨ha, hd⟩ | ⟨ha, hd⟩ | ⟨ha, hd⟩ | ⟨ha, hd⟩ | ⟨ha, hd⟩ | ⟨-, j, hd, hj⟩ := decode_rows op
  all_goals rw [hd] at h
  · exact encode_of_decodeSys h
  · exact (encode_of_decodeSeReg h).trans (wordXYN_of_opA ha)
  · exact (encode_of_decodeAlu h).trans (wordXYN_of_opA ha)
  · exact (encode_of_decodeSneReg h).trans (wordXYN_of_opA ha)
  · exact (encode_of_decodeKey h).trans (wordXNN_of_opA ha)
  · exact (encode_of_decodeMisc h).trans (wordXNN_of_opA ha)
  · cases h; exact hj

/-- Settles O3: what is decoded is well-formed, and row by row its encoding is the opcode. -/
theorem encodeOfDecodeIsTheOpcode : Obligations.EncodeOfDecodeIsTheOpcode :=
  fun _ _ h => ⟨Machine.decode_wellFormed h, encode_of_decode h⟩

/-! ### The illegal opcodes (R90)

A row with selectors is split along its decoder's lines: each but the last has the value of its selector and answers an
instruction, and in the last the selector has none of those values. -/

theorem decodeSys_error_iff (op : Word) : (∃ e, decodeSys op = .error e) ↔ op ≠ 0x00E0 ∧ op ≠ 0x00EE := by
  unfold decodeSys
  split <;> simp_all [← BitVec.toNat_inj]

theorem decodeSeReg_error_iff (x y n : Nibble) : (∃ e, decodeSeReg x y n = .error e) ↔ n ≠ 0x0 := by
  unfold decodeSeReg
  split <;> simp_all [← BitVec.toNat_inj]

theorem decodeSneReg_error_iff (x y n : Nibble) : (∃ e, decodeSneReg x y n = .error e) ↔ n ≠ 0x0 := by
  unfold decodeSneReg
  split <;> simp_all [← BitVec.toNat_inj]

/-- The selectors that R76 leaves out are the seven of R90's row. -/
theorem decodeAlu_error_iff (x y n : Nibble) :
    (∃ e, decodeAlu x y n = .error e) ↔ n ∈ ([0x8, 0x9, 0xA, 0xB, 0xC, 0xD, 0xF] : List Nibble) := by
  have hrest : ∀ n : Nibble, n ∈ ([0x8, 0x9, 0xA, 0xB, 0xC, 0xD, 0xF] : List Nibble) ↔
      n.toNat ∉ [0x0, 0x1, 0x2, 0x3, 0x4, 0x5, 0x6, 0x7, 0xE] := by decide
  rw [hrest]
  unfold decodeAlu
  split <;> simp_all

theorem decodeKey_error_iff (x : Nibble) (nn : Byte) :
    (∃ e, decodeKey x nn = .error e) ↔ nn ∉ ([0x9E, 0xA1] : List Byte) := by
  unfold decodeKey
  split <;> simp_all [← BitVec.toNat_inj]

theorem decodeMisc_error_iff (x : Nibble) (nn : Byte) :
    (∃ e, decodeMisc x nn = .error e) ↔
      nn ∉ ([0x07, 0x0A, 0x15, 0x18, 0x1E, 0x29, 0x33, 0x55, 0x65] : List Byte) := by
  unfold decodeMisc
  split <;> simp_all [← BitVec.toNat_inj]

/-- Settles O4: in each row with illegal opcodes by the selectors of that row. -/
theorem illegalOpcodesAreExactlyTheTables : Obligations.IllegalOpcodesAreExactlyTheTables := by
  intro op
  obtain ⟨ha, hd⟩ | ⟨ha, hd⟩ | ⟨ha, hd⟩ | ⟨ha, hd⟩ | ⟨ha, hd⟩ | ⟨ha, hd⟩ | ⟨ha, i, hd, -⟩ := decode_rows op
  · rw [hd, decodeSys_error_iff]; simp [ha]
  · rw [hd, decodeSeReg_error_iff]; simp [ha]
  · rw [hd, decodeAlu_error_iff]; simp [ha]
  · rw [hd, decodeSneReg_error_iff]; simp [ha]
  · rw [hd, decodeKey_error_iff]; simp [ha]
  · rw [hd, decodeMisc_error_iff]; simp [ha]
  · rw [hd]; simp_all

/-- Settles O1: by running the decoder on each word. -/
theorem specWordsDecode : Obligations.SpecWordsDecode := by
  unfold Obligations.SpecWordsDecode; decide

end Sys2Proof

namespace Sys2Proof.Machine

/-! ### The beginning of a step (R81, R84) -/

/-- Settles O7: the step of a Halted machine ends before its fetch. -/
theorem haltedStepChangesNothing : Obligations.HaltedStepChangesNothing :=
  fun s h => step_of_none s (s.beginStep_halted (s.engine_halted_iff.1 h))

/-- Two states that go on to fetch as the same state take the same step. -/
theorem step_eq_of_beginStep {s s' u : State} (h : s.beginStep = some u) (h' : s'.beginStep = some u) :
    step s = step s' := by
  simp [step, h, h']

/-- Settles O9: with no key the step ends before its fetch; with one it fetches in the state with the wait completed, and
so does that state's own step. -/
theorem keyWaitStep : Obligations.KeyWaitStep := by
  intro s x herr hwait
  have hbegin := s.beginStep_waiting herr hwait
  refine ⟨fun hnone => step_of_none s ?_, fun k hk hlt => ?_⟩
  · rw [hbegin, s.leastKey_none.2 hnone]; rfl
  · have hleast : s.beginStep = some (s.completeWait x k) := by rw [hbegin, s.leastKey_eq_some hk hlt]; rfl
    exact step_eq_of_beginStep hleast (State.beginStep_running _ herr rfl)

/-! ### Placing an instruction (R82, R244) -/

/-- The word of an opcode, in the 16 bits of its table row, is the opcode (R70). -/
theorem tableOpcode_toNat (op : Word) : tableOpcode 16 op.toNat = op := by
  rw [tableOpcode, Nat.mod_eq_of_lt op.isLt, BitVec.ofNat_toNat, BitVec.setWidth_eq]

/-- Settles O51: the step fetches the encoding that was placed, and it decodes to the instruction. -/
theorem placedInstructionRunsNext : Obligations.PlacedInstructionRunsNext := by
  intro s i hwf
  rw [State.withFetchWord, tableOpcode_toNat]
  have hdecode : decode (s.placeOpcode (encode i)).fetchOpcode = .ok i := by
    rw [s.fetchOpcode_placeOpcode, decode_encode hwf]
  exact step_of_some _ (s.beginStep_placeOpcode (encode i)) hdecode

/-! ### The random draw (R85) -/

/-- The state whose next draw is the one of index `d`. -/
def State.withDraws (s : State) (d : Nat) : State := { s with draws := d }

section
variable (s : State) (d : Nat)

theorem State.memWrite_withDraws (a : Nat) (b : Byte) :
    (s.withDraws d).memWrite a b = (s.memWrite a b).withDraws d := by
  by_cases h : a < memSize <;> simp [State.memWrite, State.withDraws, h]

theorem State.skipIf_withDraws (c : Bool) : (s.withDraws d).skipIf c = (s.skipIf c).withDraws d := by cases c <;> rfl

theorem State.push_withDraws (w : Word) : (s.withDraws d).push w = (s.push w).withDraws d := by
  by_cases h : s.sp.val < 16
  · rw [s.push_room h, (s.withDraws d).push_room h]; rfl
  · rw [s.push_full (by omega), (s.withDraws d).push_full (show s.sp.val = 16 by omega)]

theorem State.popPc_withDraws : (s.withDraws d).popPc = s.popPc.withDraws d := by
  by_cases h : 0 < s.sp.val
  · rw [s.popPc_some h, (s.withDraws d).popPc_some h]; rfl
  · rw [s.popPc_empty (by omega), (s.withDraws d).popPc_empty (show s.sp.val = 0 by omega)]

theorem State.storeBcd_withDraws (b : Byte) : (s.withDraws d).storeBcd b = (s.storeBcd b).withDraws d := by
  have hea (k : Nat) : (s.withDraws d).ea (s.withDraws d).i k = s.ea s.i k := rfl
  simp only [State.storeBcd, hea, State.memWrite_withDraws]

theorem State.storeRegs_withDraws (rs : List Reg) : (s.withDraws d).storeRegs rs = (s.storeRegs rs).withDraws d :=
  List.foldl_hom (State.withDraws · d) fun t k => t.memWrite_withDraws d (t.ea t.i k.val) (t.readV k)

theorem State.loadRegs_withDraws (rs : List Reg) : (s.withDraws d).loadRegs rs = (s.loadRegs rs).withDraws d :=
  List.foldl_hom (State.withDraws · d) fun _ _ => rfl

/-- The blit's running state, with the next draw of index `d`. -/
def accWithDraws (acc : State × Bool) : State × Bool := (acc.1.withDraws d, acc.2)

theorem blitPixel_withDraws (px py : Nat) (bit : Bool) (acc : State × Bool) :
    blitPixel px py bit (accWithDraws d acc) = accWithDraws d (blitPixel px py bit acc) := by
  by_cases h : px < 64 ∧ py < 32
  · simp only [blitPixel, h, and_self, dite_true]; rfl
  · simp only [blitPixel, h, dite_false]

theorem blitRow_withDraws (sx py : Nat) (b : Byte) (acc : State × Bool) :
    blitRow sx py b (accWithDraws d acc) = accWithDraws d (blitRow sx py b acc) :=
  List.foldl_hom _ fun acc col => blitPixel_withDraws d (sx + col) py (spriteBit b col) acc

theorem blitRows_withDraws (sx sy n : Nat) (acc : State × Bool) :
    blitRows sx sy n (accWithDraws d acc) = accWithDraws d (blitRows sx sy n acc) :=
  List.foldl_hom _ fun acc row => blitRow_withDraws d sx (sy + row) (acc.1.memRead (acc.1.ea acc.1.i row)) acc

theorem State.blit_withDraws (x y : Reg) (n : Nat) : (s.withDraws d).blit x y n = accWithDraws d (s.blit x y n) :=
  blitRows_withDraws d _ _ n (s, false)

variable {s}

/-- Every instruction but Cxnn does the same whichever draw is next. -/
theorem exec_withDraws {i : Instr} {t : State} (hi : ¬ ∃ x nn, i = .rnd x nn) (h : exec i s = .next t) :
    exec i (s.withDraws d) = .next (t.withDraws d) := by
  cases i with
  | rnd x nn => exact absurd ⟨x, nn, rfl⟩ hi
  | ret => cases h; exact congrArg _ (s.popPc_withDraws d)
  | call nnn => cases h; exact congrArg (fun u => Host.Outcome.next (u.writePc (zext16 nnn))) (s.push_withDraws d s.pc)
  | seImm | sneImm | seReg | sneReg | skp | sknp => cases h; exact congrArg _ (s.skipIf_withDraws d _)
  | drw x y n =>
    cases h
    exact congrArg (fun acc : State × Bool => Host.Outcome.next (acc.1.writeFlag acc.2)) (s.blit_withDraws d x y n)
  | ldB => cases h; exact congrArg _ (s.storeBcd_withDraws d _)
  | stRegs => cases h; exact congrArg _ (s.storeRegs_withDraws d _)
  | ldRegs => cases h; exact congrArg _ (s.loadRegs_withDraws d _)
  | _ => cases h; rfl

/-- Cxnn alone takes a draw. -/
theorem exec_draws {i : Instr} {t : State} (hi : ¬ ∃ x nn, i = .rnd x nn) (h : exec i s = .next t) :
    t.draws = s.draws := by
  refine (exec_frame h).2 .draws ?_
  cases i with
  | rnd x nn => exact absurd ⟨x, nn, rfl⟩ hi
  | _ => simp [Instr.partWrites]

theorem State.beginStep_withDraws : (s.withDraws d).beginStep = s.beginStep.map (fun u => u.withDraws d) := by
  cases herr : s.err with
  | some e =>
    have hne : s.err ≠ none := by simp [herr]
    rw [s.beginStep_halted hne, (s.withDraws d).beginStep_halted hne]; rfl
  | none =>
    cases hwait : s.wait with
    | none => rw [s.beginStep_running herr hwait, (s.withDraws d).beginStep_running herr hwait]; rfl
    | some x =>
      rw [s.beginStep_waiting herr hwait, (s.withDraws d).beginStep_waiting herr hwait, Option.map_map]; rfl

end

/-- Settles O28: the beginning of a step and its fetch neither take nor see a draw, and of the instructions only Cxnn
does. -/
theorem onlyRandomTakesADraw : Obligations.OnlyRandomTakesADraw := by
  intro s t h
  obtain ⟨hnone, rfl⟩ | ⟨u, hu, hi⟩ := step_cases s h
  · refine .inr ⟨fun ⟨u, x, nn, hu, _⟩ => by simp [hnone] at hu, rfl, fun d => step_of_none (t.withDraws d) ?_⟩
    rw [State.beginStep_withDraws, hnone]; rfl
  have hdraws : u.draws = s.draws := (s.frame_beginStep hu).2 .draws (by simp)
  have hbegin (d : Nat) : (s.withDraws d).beginStep = some (u.withDraws d) := by
    rw [State.beginStep_withDraws, hu]; rfl
  have hruns : (∃ u x nn, s.beginStep = some u ∧ decode u.fetchOpcode = .ok (.rnd x nn)) ↔
      ∃ x nn, decode u.fetchOpcode = .ok (.rnd x nn) := by simp [hu]
  rw [hruns]
  obtain ⟨i, hd, hx⟩ | ⟨e, hd, rfl⟩ := hi
  · by_cases hrnd : ∃ x nn, i = .rnd x nn
    · obtain ⟨x, nn, rfl⟩ := hrnd
      cases hx
      exact .inl ⟨⟨x, nn, hd⟩, congrArg (· + 1) hdraws⟩
    · refine .inr ⟨by simpa [hd] using hrnd, (exec_draws hrnd hx).trans hdraws, fun d => ?_⟩
      exact (step_of_some _ (hbegin d) hd).trans (exec_withDraws d hrnd hx)
  · exact .inr ⟨by simp [hd], hdraws, fun d => step_of_illegal _ (hbegin d) hd⟩

end Sys2Proof.Machine
end

section
/-! PROOFS. The control family (40_control_flow.md): skips, jumps, and calls with their returns. -/

namespace Sys2Proof.Machine

/-! ### Skips (R103 to R106, R108) -/

/-- A taken skip adds 2 to PC modulo 65536 (R108), as an addition of words. -/
theorem State.skipIf_pc (s : State) (c : Bool) : (s.skipIf c).pc = if c then s.pc + 2 else s.pc := by
  cases c with
  | true => rw [State.skipIf_true, State.advancePc_eq]; rfl
  | false => rfl

theorem State.skipIf_beq_pc (s : State) (a b : Byte) :
    (s.skipIf (a == b)).pc = if a = b then s.pc + 2 else s.pc := by
  simp [State.skipIf_pc]

theorem State.skipIf_bne_pc (s : State) (a b : Byte) :
    (s.skipIf (a != b)).pc = if a = b then s.pc else s.pc + 2 := by
  simp [State.skipIf_pc]

/-- Settles O15: both are a skip, on the comparison and on its negation. -/
theorem skipOnImmediate : Obligations.SkipOnImmediate := fun x nn =>
  ⟨decode_encode (i := .seImm x nn) rfl, decode_encode (i := .sneImm x nn) rfl, fun s =>
    ⟨⟨_, rfl, s.skipIf_beq_pc _ _, s.frame_skipIf _⟩, ⟨_, rfl, s.skipIf_bne_pc _ _, s.frame_skipIf _⟩⟩⟩

/-- 5xyn with a nonzero n is illegal (R90). -/
theorem decodeSeReg_of_ne_zero (x y : Nibble) {n : Nibble} (hn : n ≠ 0) : decodeSeReg x y n = .error .seRegNibble := by
  unfold decodeSeReg
  split
  · rename_i h; exact absurd (BitVec.eq_of_toNat_eq h) hn
  · rfl

/-- 9xyn with a nonzero n is illegal (R90). -/
theorem decodeSneReg_of_ne_zero (x y : Nibble) {n : Nibble} (hn : n ≠ 0) :
    decodeSneReg x y n = .error .sneRegNibble := by
  unfold decodeSneReg
  split
  · rename_i h; exact absurd (BitVec.eq_of_toNat_eq h) hn
  · rfl

/-- Settles O16: the major opcode selects the row, whose one legal low nibble is 0; both instructions are a skip. -/
theorem skipOnRegisters : Obligations.SkipOnRegisters := by
  intro x y
  refine ⟨decode_encode (i := .seReg x y) rfl, decode_encode (i := .sneReg x y) rfl, fun n hn => ⟨?_, ?_⟩, fun s =>
    ⟨⟨_, rfl, s.skipIf_beq_pc _ _, s.frame_skipIf _⟩, ⟨_, rfl, s.skipIf_bne_pc _ _, s.frame_skipIf _⟩⟩⟩
  · simp [decode, decodeSeReg_of_ne_zero _ _ hn]
  · simp [decode, decodeSneReg_of_ne_zero _ _ hn]

/-! ### Jumps (R101, R107) -/

/-- Where the frame leaves ERR and WAIT, the engine state is the same (R36). -/
theorem Frame.engine_eq {rs : List Reg} {ps : List Part} {s t : State} (h : Frame rs ps s t) (herr : Part.err ∉ ps)
    (hwait : Part.wait ∉ ps) : t.engine = s.engine := by
  have he : t.err = s.err := h.2 .err herr
  have hw : t.wait = s.wait := h.2 .wait hwait
  rw [State.engine, State.engine, he, hw]

/-- A jump whose target is where it was fetched puts PC back, and a step writes nothing else. -/
theorem step_jp_self (s : State) {nnn : Addr12} (hrun : s.engine = .running) (hop : s.fetchOpcode = wordNNN 0x1 nnn)
    (hpc : s.pc.toNat = nnn.toNat) : step s = .next s := by
  have hd : decode (wordNNN 0x1 nnn) = .ok (.jp nnn) := decode_encode (i := .jp nnn) rfl
  have htarget : zext16 nnn = s.pc := BitVec.eq_of_toNat_eq (by rw [zext16_toNat, hpc])
  have hback : (s.writePc (s.pc + 2)).writePc (zext16 nnn) = s := by rw [htarget]; rfl
  exact ((stepRunsTheDecodedInstruction s _ hrun hop.symm).1 _ hd).trans (congrArg Host.Outcome.next hback)

/-- Settles O18: the target of Bnnn is at most 0x10FE, where the fetch outside memory halts with the opcode 0x0000. -/
theorem jumpsAreAbsolute : Obligations.JumpsAreAbsolute := by
  intro nnn
  refine ⟨decode_encode (i := .jp nnn) rfl, decode_encode (i := .jpV0 nnn) rfl, fun s =>
    ⟨⟨_, rfl, zext16_toNat nnn, s.frame_writePc _⟩, step_jp_self s,
      ⟨_, rfl, jumpSum_toNat nnn _, s.frame_writePc _, fun hrun hhigh => ?_⟩⟩⟩
  have hrun' := ((s.frame_writePc (jumpSum nnn (s.readV 0))).engine_eq (by simp) (by simp)).trans hrun
  have hle : (jumpSum nnn (s.readV 0)).toNat ≤ 0x1100 := by rw [jumpSum_toNat]; omega
  exact (fetchOutsideMemoryHalts _ hrun').1 hhigh hle

/-! ### Calls and returns (R100, R102) -/

/-- Below 16 entries a push counts up and writes STACK[SP] alone (R102). -/
theorem State.push_below_capacity (s : State) (w : Word) (h : s.sp.val < 16) :
    (s.push w).sp.val = s.sp.val + 1 ∧
      ∀ k : Fin 16, (s.push w).stack[k] = if k.val = s.sp.val then w else s.stack[k] := by
  rw [s.push_room h]
  exact ⟨rfl, fun k => by simp [Vector.getElem_set, eq_comm]⟩

/-- A pop of k + 1 entries counts down and takes PC from STACK[k] (R100). -/
theorem State.popPc_of_succ (s : State) {k : Fin 16} (h : s.sp.val = k.val + 1) :
    s.popPc.sp.val = k.val ∧ s.popPc.pc = s.stack[k] := by
  rw [s.popPc_some (by omega)]
  simp [h]

/-- Settles O19: the push by the two cases of the stack's size; at 16, STACK[15] is the entry a RET finds. -/
theorem callPushesAndJumps : Obligations.CallPushesAndJumps := by
  intro nnn
  refine ⟨decode_encode (i := .call nnn) rfl, fun s =>
    ⟨_, rfl, zext16_toNat nnn, exec_frame (i := .call nnn) rfl, s.push_below_capacity s.pc, fun hfull => ?_⟩⟩
  rw [s.push_full hfull]
  have hpop := (s.writePc (zext16 nnn)).popPc_of_succ (k := 15) hfull
  exact ⟨rfl, rfl, _, rfl, hpop.2⟩

/-- Settles O20: the pop by the two cases of the stack's size. -/
theorem returnPopsOrDoesNothing : Obligations.ReturnPopsOrDoesNothing := by
  refine ⟨decode_encode (i := .ret) rfl, fun s =>
    ⟨_, rfl, s.popPc_stack, s.frame_popPc, fun k => s.popPc_of_succ, fun hempty => ?_⟩⟩
  rw [s.popPc_empty hempty]
  exact ⟨rfl, rfl⟩

/-- Settles O21: the RET pops the entry STACK[SP] that the CALL pushed, and every entry below it is the caller's. -/
theorem returnComesBackAfterTheCall : Obligations.ReturnComesBackAfterTheCall := by
  intro nnn s t u v hroom hcall ⟨hsp, hstack⟩ hret
  cases hcall
  cases hret
  obtain ⟨hsize, hentry⟩ := s.push_below_capacity s.pc hroom
  have hentry' (k : Fin 16) : u.stack[k] = if k.val = s.sp.val then s.pc else s.stack[k] :=
    (congrArg (·[k]) hstack).trans (hentry k)
  obtain ⟨hback, hpc⟩ := u.popPc_of_succ (k := ⟨s.sp.val, hroom⟩) ((congrArg Fin.val hsp).trans hsize)
  refine ⟨?_, Fin.ext hback, fun k hk => ?_⟩
  · rw [hpc, hentry' ⟨s.sp.val, hroom⟩, if_pos rfl]
  · rw [u.popPc_stack, hentry' k, if_neg hk.ne]

end Sys2Proof.Machine
end

section
/-! PROOFS. The arithmetic and logic family (41_alu.md): the value each meaning writes to Vx, and the flag it writes to VF
after it. -/

namespace Sys2Proof.Machine

/-! ### The result and the flag after it (R120, R121) -/

section
variable (s : State) (b : Byte) (f : Bool)

/-- The flag is written last, so it is what VF ends with, whichever register holds the result. -/
@[simp] theorem State.readV_writeFlag_vf : (s.writeFlag f).readV vf = flagByte f := s.readV_writeV_self vf _

/-- Outside VF the flag leaves the result. -/
theorem State.readV_writeV_writeFlag {x : Reg} (hx : x ≠ vf) : ((s.writeV x b).writeFlag f).readV x = b := by
  rw [State.writeFlag_eq, State.readV_writeV_ne _ hx, State.readV_writeV_self]

end

theorem trunc8_toNat (n : Nat) : (trunc8 n).toNat = n % 256 := BitVec.toNat_ofNat n 8

theorem flagByte_toNat (f : Bool) : (flagByte f).toNat = f.toNat := by cases f <;> rfl

theorem flagByte_carry (a b : Byte) : flagByte (carry a b) = if 255 < a.toNat + b.toNat then 1 else 0 := by
  simp [flagByte, carry]

theorem flagByte_noBorrow (a b : Byte) : flagByte (noBorrow a b) = if b.toNat ≤ a.toNat then 1 else 0 := by
  simp [flagByte, noBorrow]

/-- The bit 8xy6 shifts out is the operand's remainder by 2. -/
theorem flagByte_lowBit_toNat (a : Byte) : (flagByte (lowBit a)).toNat = a.toNat % 2 := by
  rw [flagByte_toNat, lowBit, ← BitVec.testBit_toNat, Nat.toNat_testBit, Nat.pow_zero, Nat.div_one]

/-- The bit 8xyE shifts out is the operand's quotient by 128, as a byte is below 256. -/
theorem flagByte_highBit_toNat (a : Byte) : (flagByte (highBit a)).toNat = a.toNat / 128 := by
  have ha := a.isLt
  rw [flagByte_toNat, highBit, ← BitVec.testBit_toNat, Nat.toNat_testBit]
  omega

/-- The difference modulo 256 by its two cases: 256 is added exactly where a borrow is taken. -/
theorem difference_toNat (a b : Byte) :
    (difference a b).toNat = if b.toNat ≤ a.toNat then a.toNat - b.toNat else a.toNat + 256 - b.toNat := by
  rw [difference, trunc8_toNat]
  have ha := a.isLt
  split <;> omega

/-! ### Operations without a flag (R122 to R127) -/

/-- Settles O22: each writes V[x] alone; the sum is truncated to 8 bits. -/
theorem loadAndAddImmediate : Obligations.LoadAndAddImmediate := by
  intro x nn
  refine ⟨decode_encode (i := .ldImm x nn) rfl, decode_encode (i := .addImm x nn) rfl, fun s => ⟨?load, ?add⟩⟩
  case load => exact ⟨_, rfl, s.readV_writeV_self x nn, s.frame_writeV x nn⟩
  case add =>
    refine ⟨_, rfl, ?_, s.frame_writeV x _⟩
    rw [State.readV_writeV_self, trunc8_toNat]

/-- Settles O23: each writes V[x] alone, with an operation of words that acts on each bit. -/
theorem assignAndBitwise : Obligations.AssignAndBitwise := by
  intro x y
  refine ⟨decode_encode (i := .ldReg x y) rfl, decode_encode (i := .orReg x y) rfl, decode_encode (i := .andReg x y) rfl,
    decode_encode (i := .xorReg x y) rfl, fun s => ⟨?assign, ?or, ?and, ?xor⟩⟩
  case assign => exact ⟨_, rfl, s.readV_writeV_self x _, s.frame_writeV x _⟩
  case or => exact ⟨_, rfl, fun b => by rw [State.readV_writeV_self, BitVec.getLsbD_or], s.frame_writeV x _⟩
  case and => exact ⟨_, rfl, fun b => by rw [State.readV_writeV_self, BitVec.getLsbD_and], s.frame_writeV x _⟩
  case xor => exact ⟨_, rfl, fun b => by rw [State.readV_writeV_self, BitVec.getLsbD_xor], s.frame_writeV x _⟩

/-! ### Operations with a flag (R128 to R132) -/

/-- Settles O24: the carry is written after the truncated sum. -/
theorem addWritesCarry : Obligations.AddWritesCarry := by
  intro x y
  refine ⟨decode_encode (i := .addReg x y) rfl, fun s =>
    ⟨_, rfl, ?flag, fun hx => ?sum, exec_frame (i := .addReg x y) rfl⟩⟩
  case flag => rw [State.readV_writeFlag_vf, flagByte_carry]
  case sum => rw [State.readV_writeV_writeFlag _ _ _ hx, trunc8_toNat]

/-- Settles O25: 8xy7 is 8xy5 with the operands exchanged, and the flag is written after the difference. -/
theorem subtractionsWriteNotBorrow : Obligations.SubtractionsWriteNotBorrow := by
  intro x y
  refine ⟨decode_encode (i := .subReg x y) rfl, decode_encode (i := .subn x y) rfl, ?_⟩
  rintro s _ _ rfl rfl
  refine ⟨⟨_, rfl, ?flagXY, fun hx => ?differenceXY, exec_frame (i := .subReg x y) rfl⟩,
    ⟨_, rfl, ?flagYX, fun hx => ?differenceYX, exec_frame (i := .subn x y) rfl⟩⟩
  case flagXY | flagYX => rw [State.readV_writeFlag_vf, flagByte_noBorrow]
  case differenceXY | differenceYX => rw [State.readV_writeV_writeFlag _ _ _ hx, difference_toNat]

/-- The operand of a shift is V[x] or V[y], as SHIFT_SRC says. -/
theorem State.eq_readV_shiftReg (s : State) {x y : Reg} {a : Nat} (hvx : s.cfg.shiftSrc = .vx → a = (s.readV x).toNat)
    (hvy : s.cfg.shiftSrc = .vy → a = (s.readV y).toNat) : a = (s.readV (s.shiftReg x y)).toNat := by
  unfold State.shiftReg
  cases h : s.cfg.shiftSrc with
  | vx => exact hvx h
  | vy => exact hvy h

/-- Settles O26: the operand's halves and doubles, and the bit that a shift by one loses. -/
theorem shiftsWriteTheBitShiftedOut : Obligations.ShiftsWriteTheBitShiftedOut := by
  intro x y
  refine ⟨decode_encode (i := .shr x y) rfl, decode_encode (i := .shl x y) rfl, fun s a hvx hvy => ?_⟩
  obtain rfl := s.eq_readV_shiftReg hvx hvy
  refine ⟨⟨_, rfl, ?bit0, fun hx => ?half, exec_frame (i := .shr x y) rfl⟩,
    ⟨_, rfl, ?bit7, fun hx => ?double, exec_frame (i := .shl x y) rfl⟩⟩
  case bit0 => rw [State.readV_writeFlag_vf, flagByte_lowBit_toNat]
  case half => rw [State.readV_writeV_writeFlag _ _ _ hx, BitVec.toNat_ushiftRight, Nat.shiftRight_one]
  case bit7 => rw [State.readV_writeFlag_vf, flagByte_highBit_toNat]
  case double => rw [State.readV_writeV_writeFlag _ _ _ hx, BitVec.toNat_shiftLeft, Nat.shiftLeft_eq, Nat.pow_one]

/-! ### The random draw (R133) -/

theorem State.readV_loadRandom (s : State) (x : Reg) (nn r : Byte) : (s.loadRandom x nn r).readV x = nn &&& r :=
  s.readV_writeV_self x _

/-- Settles O27: a bit that the mask lacks is 0 in the AND with any byte. -/
theorem randomIsMasked : Obligations.RandomIsMasked := by
  intro x nn
  refine ⟨decode_encode (i := .rnd x nn) rfl, fun s =>
    ⟨_, rfl, s.readV_loadRandom x nn _, fun b hb => ?masked, rfl, exec_frame (i := .rnd x nn) rfl⟩⟩
  case masked => rw [State.readV_loadRandom, BitVec.getLsbD_and, hb, Bool.false_and]

end Sys2Proof.Machine
end

section
/-! PROOFS. The index and memory family (42_index_memory.md): what I becomes, and the bytes and registers the transfers
move at ea(I, k). -/

namespace Sys2Proof.Machine

/-! ### The address register (R150 to R152) -/

theorem trunc16_toNat (n : Nat) : (trunc16 n).toNat = n % 65536 := BitVec.toNat_ofNat n 16

/-- The glyph of a digit stands at five times the digit, which 16 bits hold. -/
theorem glyphAddr_toNat (b : Byte) : (glyphAddr b).toNat = b.toNat % 16 * 5 := by
  rw [glyphAddr, trunc16_toNat]; omega

/-- Settles O29: each writes I alone, and memory ends at 0x1000. -/
theorem addressRegister : Obligations.AddressRegister := by
  intro x nnn
  refine ⟨decode_encode (i := .ldI nnn) rfl, decode_encode (i := .addI x) rfl, decode_encode (i := .ldF x) rfl, fun s =>
    ⟨⟨_, rfl, zext16_toNat nnn, s.frame_writeI _⟩,
      ⟨_, rfl, trunc16_toNat _, State.memRead_high _, s.frame_writeI _⟩,
      ⟨_, rfl, glyphAddr_toNat _, s.frame_writeI _⟩⟩⟩

/-! ### The decimal digits (R153) -/

/-- A byte is below 1000, so its hundreds need no remainder by 10. -/
theorem bcdHundreds_toNat (b : Byte) : (bcdHundreds b).toNat = b.toNat / 100 := by
  have hb := b.isLt
  rw [bcdHundreds, trunc8_toNat]; omega

theorem bcdTens_toNat (b : Byte) : (bcdTens b).toNat = b.toNat / 10 % 10 := by
  rw [bcdTens, trunc8_toNat]; omega

theorem bcdOnes_toNat (b : Byte) : (bcdOnes b).toNat = b.toNat % 10 := by
  rw [bcdOnes, trunc8_toNat]; omega

section
variable (s : State) (b : Byte)

theorem State.memRead_storeBcd_hundreds (h : s.ea s.i 0 < memSize) :
    (s.storeBcd b).memRead (s.ea s.i 0) = bcdHundreds b := by
  rw [State.memRead_storeBcd, if_pos ⟨rfl, h⟩]

theorem State.memRead_storeBcd_tens (h : s.ea s.i 1 < memSize) :
    (s.storeBcd b).memRead (s.ea s.i 1) = bcdTens b := by
  have h10 : s.ea s.i 1 ≠ s.ea s.i 0 := mt (s.ea_inj s.i (by decide) (by decide)) (by decide)
  rw [State.memRead_storeBcd, if_neg (fun he => h10 he.1), if_pos ⟨rfl, h⟩]

theorem State.memRead_storeBcd_ones (h : s.ea s.i 2 < memSize) :
    (s.storeBcd b).memRead (s.ea s.i 2) = bcdOnes b := by
  have h20 : s.ea s.i 2 ≠ s.ea s.i 0 := mt (s.ea_inj s.i (by decide) (by decide)) (by decide)
  have h21 : s.ea s.i 2 ≠ s.ea s.i 1 := mt (s.ea_inj s.i (by decide) (by decide)) (by decide)
  rw [State.memRead_storeBcd, if_neg (fun he => h20 he.1), if_neg (fun he => h21 he.1), if_pos ⟨rfl, h⟩]

end

/-- Settles O30: the three addresses differ, so no digit's store covers another's. -/
theorem bcdStoresThreeDigits : Obligations.BcdStoresThreeDigits := by
  intro x
  refine ⟨decode_encode (i := .ldB x) rfl, fun s => ⟨_, rfl, fun h => ?hundreds, fun h => ?tens, fun h => ?ones,
    fun a h0 h1 h2 => ?other, fun a => State.memRead_high _, s.frame_storeBcd _⟩⟩
  case hundreds => rw [s.memRead_storeBcd_hundreds _ h, bcdHundreds_toNat]
  case tens => rw [s.memRead_storeBcd_tens _ h, bcdTens_toNat]
  case ones => rw [s.memRead_storeBcd_ones _ h, bcdOnes_toNat]
  case other => exact exec_memRead_other (i := .ldB x) rfl (by simp [Instr.storeAddrs, h0, h1, h2])

/-! ### The register transfers (R154 to R156) -/

/-- Settles O31: the listed registers are V0 to Vx, each once, so each byte stored stays. -/
theorem storeRegisters : Obligations.StoreRegisters := by
  intro x
  refine ⟨decode_encode (i := .stRegs x) rfl, fun s => ⟨_, rfl, fun k hk h => ?stored, fun a ha => ?other,
    fun a => State.memRead_high _, s.frame_storeRegs _⟩⟩
  case stored => exact s.memRead_storeRegs_at (regsUpTo_nodup x) ((mem_regsUpTo x k).2 hk) h
  case other => exact s.memRead_storeRegs_other _ a fun k hk => ha k ((mem_regsUpTo x k).1 hk)

/-- Fx65 gives V[k] the byte at ea(I, k). -/
theorem State.readV_loadRegs_regsUpTo (s : State) {x k : Reg} (hk : k ≤ x) :
    (s.loadRegs (regsUpTo x)).readV k = s.memRead (s.ea s.i k.val) :=
  s.readV_loadRegs_at (regsUpTo_nodup x) ((mem_regsUpTo x k).2 hk)

/-- Settles O32: each register is loaded once, and 4096 and above reads 0. -/
theorem loadRegisters : Obligations.LoadRegisters := by
  intro x
  refine ⟨decode_encode (i := .ldRegs x) rfl, fun s =>
    ⟨_, rfl, fun k => s.readV_loadRegs_regsUpTo, fun k hk h => ?outside, s.frame_loadRegs _⟩⟩
  case outside => rw [s.readV_loadRegs_regsUpTo hk, s.memRead_high h]

/-- Settles O33: inside memory both transfers use the address I + k, under either setting of ADDR_SUM. -/
theorem loadGivesBackWhatStoreSaved : Obligations.LoadGivesBackWhatStoreSaved := by
  intro x s t u w hlt hstore hmem hi hload k hk
  cases hstore
  cases hload
  have hkx : s.i.toNat + k.val < memSize := by
    have := Fin.le_def.1 hk
    unfold memSize
    omega
  have hea : u.ea u.i k.val = s.i.toNat + k.val := by
    rw [hi, u.ea_of_lt (by unfold memSize at hkx; omega)]
  calc (u.loadRegs (regsUpTo x)).readV k
      _ = u.memRead (s.i.toNat + k.val) := by rw [u.readV_loadRegs_regsUpTo hk, hea]
      _ = (s.storeRegs (regsUpTo x)).memRead (s.i.toNat + k.val) := hmem _
      _ = s.readV k := s.memRead_storeRegs_regsUpTo hk hkx

end Sys2Proof.Machine
end

section
/-! PROOFS. The display family (43_display.md): clearing the display, the blit of Dxyn and drawing it twice, and the host
operations that read the display and CHANGED. -/

namespace Sys2Proof.Machine

/-! ### 00E0 (R170) -/

/-- Settles O35: the pixels are tested before they are turned off. -/
theorem clearScreen : Obligations.ClearScreen := by
  refine ⟨decode_encode (i := .cls) rfl, fun s =>
    ⟨_, rfl, State.pixel_clearDisplay _, ?changed, exec_frame (i := .cls) rfl⟩⟩
  case changed => rw [State.clearDisplay_changed, State.markChanged_changed, Bool.or_eq_true, s.anyLit_iff]

/-! ### Dxyn (R171, R180 to R182, R186) -/

theorem decode_drw (x y : Reg) (n : Nibble) : decode (wordXYN 0xD x y n) = .ok (.drw x y n.toNat) := by
  have h := decode_encode (i := .drw x y n.toNat) (decide_eq_true (Nat.le_of_lt_succ n.isLt))
  rwa [encode, BitVec.ofNat_toNat, BitVec.setWidth_eq] at h

/-- A draw flips a pixel exactly where its sprite covers it: VF, which is written last, is no pixel. -/
theorem exec_drw_flips_iff {x y : Reg} {n : Nat} {s t : State} (h : exec (.drw x y n) s = .next t) (row : Fin 32)
    (col : Fin 64) : t.pixel row col ≠ s.pixel row col ↔ s.SpriteCovers x y n row col := by
  cases h
  exact (s.blitted_blit x y n).pixels row col

/-- Settles O36: the flipped pixels, the collision and CHANGED are what the blit leaves. -/
theorem drawFlipsTheCoveredPixels : Obligations.DrawFlipsTheCoveredPixels := by
  intro x y n
  refine ⟨decode_drw x y n, fun s => ?_⟩
  have hblit := s.blitted_blit x y n.toNat
  refine ⟨_, rfl, exec_drw_flips_iff rfl, fun hlit => ?collision, fun hunlit => ?noCollision, hblit.changed,
    exec_frame (i := .drw x y n.toNat) rfl⟩
  case collision => rw [State.readV_writeFlag_vf, hblit.collided.2 hlit]; rfl
  case noCollision => rw [State.readV_writeFlag_vf, Bool.eq_false_iff.2 (mt hblit.collided.1 hunlit)]; rfl

/-- What a sprite covers depends on its origin, on I and on memory (and ADDR_SUM) alone. -/
theorem Frame.spriteCovers_iff {rs : List Reg} {ps : List Part} {s t : State} (h : Frame rs ps s t) {x y : Reg}
    (hx : x ∉ rs) (hy : y ∉ rs) (hi : Part.i ∉ ps) (hmem : Part.mem ∉ ps) (hcfg : Part.cfg ∉ ps) (n : Nat)
    (row : Fin 32) (col : Fin 64) : t.SpriteCovers x y n row col ↔ s.SpriteCovers x y n row col := by
  obtain ⟨hregs, hparts⟩ := h
  have hi' : t.i = s.i := hparts .i hi
  have hmem' : ∀ a, t.memRead a = s.memRead a := hparts .mem hmem
  have hcfg' : t.cfg = s.cfg := hparts .cfg hcfg
  have hea (k : Nat) : t.ea s.i k = s.ea s.i k := by rw [State.ea, State.ea, hcfg']
  rw [State.SpriteCovers, State.SpriteCovers, hregs x hx, hregs y hy, hi', hmem', hea]

/-- Settles O37: the first draw leaves the origin, I and memory, so both draws flip the same pixels. -/
theorem drawingTwiceRestoresTheDisplay : Obligations.DrawingTwiceRestoresTheDisplay := by
  intro x y n s t u hx hy hst htu
  refine State.disp_ext fun row col => ?_
  have hcovers : t.SpriteCovers x y n row col ↔ s.SpriteCovers x y n row col :=
    (exec_frame hst).spriteCovers_iff (by simpa [Instr.regWrites] using hx) (by simpa [Instr.regWrites] using hy)
      (by simp [Instr.partWrites]) (by simp [Instr.partWrites]) (by simp [Instr.partWrites]) n row col
  have hflips : u.pixel row col ≠ t.pixel row col ↔ t.pixel row col ≠ s.pixel row col := by
    rw [exec_drw_flips_iff htu, exec_drw_flips_iff hst, hcovers]
  by_cases hkept : t.pixel row col = s.pixel row col
  · exact (not_not.1 (mt hflips.1 (not_not.2 hkept))).trans hkept
  · calc u.pixel row col
        _ = !t.pixel row col := Bool.eq_not.2 (hflips.2 hkept)
        _ = s.pixel row col := (Bool.eq_not.2 (Ne.symm hkept)).symm

/-! ### Reading the display (R183) -/

/-- The rows one after another, as one vector of 32 * 64 pixels. -/
theorem State.pixels_eq_flatten (s : State) : s.pixels = s.disp.flatten.toList := by
  simp [State.pixels, Vector.flatten, List.flatMap_def, Vector.toList, Function.comp_def]

theorem State.length_pixels (s : State) : s.pixels.length = 2048 := by
  rw [s.pixels_eq_flatten, Vector.length_toList]

/-- Row and column are the quotient and the remainder by 64 of the index. -/
theorem State.pixels_getElem? (s : State) (row : Fin 32) (col : Fin 64) :
    s.pixels[row.val * 64 + col.val]? = some (s.pixel row col) := by
  have hrow : (row.val * 64 + col.val) / 64 = row.val := by omega
  have hcol : (row.val * 64 + col.val) % 64 = col.val := by omega
  rw [s.pixels_eq_flatten, List.getElem?_eq_getElem (by rw [Vector.length_toList]; omega), Vector.getElem_toList,
    Vector.getElem_flatten]
  simp only [hrow, hcol, State.pixel, Fin.getElem_fin]

/-- Settles O39: the answer is the flattened display. -/
theorem readDisplayIsRowMajor : Obligations.ReadDisplayIsRowMajor :=
  fun s => ⟨rfl, s.pixels, rfl, s.length_pixels, s.pixels_getElem?⟩

/-! ### CHANGED (R184) -/

/-- Of the instructions only 00E0 and Dxyn write CHANGED (R33). -/
theorem cls_or_drw_of_changed_mem_partWrites {i : Instr} (h : Part.changed ∈ i.partWrites) :
    i = .cls ∨ ∃ x y n, i = .drw x y n := by
  cases i with
  | cls => exact .inl rfl
  | drw x y n => exact .inr ⟨x, y, n, rfl⟩
  | _ => simp [Instr.partWrites] at h

theorem Frame.mem_of_changed_ne {rs : List Reg} {ps : List Part} {s t : State} (h : Frame rs ps s t)
    (hne : t.changed ≠ s.changed) : Part.changed ∈ ps :=
  not_not.1 (mt (h.2 .changed) hne)

/-- What comes before the instruction and what an illegal opcode does leave CHANGED, so the instruction has changed it. -/
theorem step_changed_ne {s t : State} (h : step s = .next t) (hne : t.changed ≠ s.changed) :
    ∃ u i, s.beginStep = some u ∧ decode u.fetchOpcode = .ok i ∧ (i = .cls ∨ ∃ x y n, i = .drw x y n) := by
  obtain ⟨_, rfl⟩ | ⟨u, hu, hi⟩ := step_cases s h
  · exact absurd rfl hne
  have hbegin : u.changed = s.changed := (s.frame_beginStep hu).2 .changed (by simp)
  rw [← hbegin] at hne
  obtain ⟨i, hd, hx⟩ | ⟨e, _, rfl⟩ := hi
  · exact ⟨u, i, hu, hd, cls_or_drw_of_changed_mem_partWrites ((exec_frame hx).mem_of_changed_ne hne)⟩
  · exact absurd (u.frame_illegalOpcode.mem_of_changed_ne hne) (by simp)

/-- Settles O40: but for STEP, RESET and CONSUME_CHANGED no operation's frame has CHANGED in it. -/
theorem consumeChangedReadsAndClears : Obligations.ConsumeChangedReadsAndClears := by
  refine ⟨fun s => ⟨⟨rfl, rfl⟩, _, rfl, rfl, rfl, s.frame_clearChanged⟩, fun o s t h hne => ?_⟩
  by_cases hconsume : o = .consumeChanged
  · exact .inl hconsume
  by_cases hreset : o = .reset
  · exact .inr (.inl hreset)
  by_cases hstep : o = .step
  · subst hstep; exact .inr (.inr ⟨rfl, step_changed_ne h hne⟩)
  · exact absurd ((HostOp.frame_run_of_ne_consumeChanged h hreset hstep hconsume).mem_of_changed_ne hne) (by simp)

end Sys2Proof.Machine
end

section
/-! PROOFS. The timers and keypad family (44_timers_keypad.md): the timers and SOUND, the keys and the skips on them, the
key-wait, and which operations can change a timer or a key. -/

namespace Sys2Proof.Machine

/-! ### The key-wait (R197, R81) -/

/-- Settles O43: Fx0A leaves ERR and the keys, so the state after it is a waiting one, and O9 is about its next step. -/
theorem waitForKey : Obligations.WaitForKey := by
  intro x
  refine ⟨decode_encode (i := .ldVxK x) rfl, fun s =>
    ⟨s.writeWait (some x), rfl, rfl, s.frame_writeWait _, fun herr => ⟨?waiting, ?steps⟩⟩⟩
  case waiting => exact (State.engine_waiting_iff _).2 ⟨herr, by simp⟩
  case steps => exact keyWaitStep (s.writeWait (some x)) x herr rfl

/-! ### What can change a timer or a key (R28, R29, R201, R205) -/

/-- Beside PC, WAIT and ERR a step changes no part but one that the instruction it runs may write. -/
theorem step_writer {s t : State} {p : Part} (h : step s = .next t) (hp : p ∉ [.pc, .wait, .err])
    (hne : ¬ p.Same s t) :
    ∃ u i, s.beginStep = some u ∧ decode u.fetchOpcode = .ok i ∧ p ∈ i.partWrites := by
  obtain ⟨_, rfl⟩ | ⟨u, hu, hi⟩ := step_cases s h
  · exact absurd (p.same_refl t) hne
  have hbegin : p.Same s u := (s.frame_beginStep hu).2 p (by simp_all)
  obtain ⟨i, hd, hx⟩ | ⟨e, _, rfl⟩ := hi
  · refine ⟨u, i, hu, hd, by_contra fun hkept => hne ?_⟩
    have hadvance : p.Same u u.advancePc := u.frame_advancePc.2 p (by simp_all)
    exact p.same_trans hbegin (p.same_trans hadvance ((exec_frame hx).2 p hkept))
  · exact absurd (p.same_trans hbegin (u.frame_illegalOpcode.2 p (by simp_all))) hne

/-- What can have changed a part, such as a timer, that LOAD, SET_KEY, CONSUME_CHANGED and a step around its instruction
all leave. -/
theorem HostOp.run_writer {o : HostOp} {s t : State} {p : Part} (h : o.run s = .next t)
    (hp : p ∉ [.pc, .wait, .err, .mem, .key, .changed]) (hne : ¬ p.Same s t) :
    o = .tick ∨ o = .reset ∨
      (o = .step ∧ ∃ u i, s.beginStep = some u ∧ decode u.fetchOpcode = .ok i ∧ p ∈ i.partWrites) := by
  cases o with
  | tick => exact .inl rfl
  | reset => exact .inr (.inl rfl)
  | step => exact .inr (.inr ⟨rfl, step_writer h (by simp_all) hne⟩)
  | load => cases h; exact absurd ((s.frame_loadFrom _ _).2 p (by simp_all)) hne
  | setKey => cases h; exact absurd ((s.frame_setKeyOp _ _).2 p (by simp_all)) hne
  | consumeChanged => cases h; exact absurd (s.frame_clearChanged.2 p (by simp_all)) hne
  | readDisplay | readChanged | sound | readError | readState => cases h; exact absurd (p.same_refl s) hne

/-- Of the instructions only Fx15 writes DT (R191). -/
theorem eq_ldDTVx_of_dt_mem_partWrites {i : Instr} (h : Part.dt ∈ i.partWrites) : ∃ x, i = .ldDTVx x := by
  cases i with
  | ldDTVx x => exact ⟨x, rfl⟩
  | _ => simp [Instr.partWrites] at h

/-- Of the instructions only Fx18 writes ST (R192). -/
theorem eq_ldSTVx_of_st_mem_partWrites {i : Instr} (h : Part.st ∈ i.partWrites) : ∃ x, i = .ldSTVx x := by
  cases i with
  | ldSTVx x => exact ⟨x, rfl⟩
  | _ => simp [Instr.partWrites] at h

/-- Settles O45: each timer is a part that, of the instructions, its own one alone writes. -/
theorem timersChangeOnlyByTickAndTheirInstructions : Obligations.TimersChangeOnlyByTickAndTheirInstructions := by
  intro o s t h
  refine ⟨fun hne => (HostOp.run_writer (p := .dt) h (by simp) hne).imp_right (Or.imp_right ?dt),
    fun hne => (HostOp.run_writer (p := .st) h (by simp) hne).imp_right (Or.imp_right ?st)⟩
  case dt =>
    rintro ⟨hstep, u, i, hu, hd, hi⟩
    obtain ⟨x, rfl⟩ := eq_ldDTVx_of_dt_mem_partWrites hi
    exact ⟨hstep, u, x, hu, hd⟩
  case st =>
    rintro ⟨hstep, u, i, hu, hd, hi⟩
    obtain ⟨x, rfl⟩ := eq_ldSTVx_of_st_mem_partWrites hi
    exact ⟨hstep, u, x, hu, hd⟩

/-- No instruction writes a key (R29). -/
theorem key_not_mem_partWrites (i : Instr) : Part.key ∉ i.partWrites := by
  cases i <;> simp [Instr.partWrites]

theorem State.setKeyOp_of_key (s : State) (k : Reg) (p : Bool) : s.setKeyOp (k.val : Int) p = s.writeKey k p :=
  dif_pos (by omega)

theorem State.setKeyOp_outside (s : State) {index : Int} (h : index < 0 ∨ 15 < index) (p : Bool) :
    s.setKeyOp index p = s :=
  dif_neg (by omega)

/-- SET_KEY leaves every key but the one of its index. -/
theorem State.readKey_setKeyOp_ne (s : State) {index : Int} {k : Reg} (h : index ≠ k.val) (p : Bool) :
    (s.setKeyOp index p).readKey k = s.readKey k := by
  by_cases hrange : index < 0 ∨ 15 < index
  · rw [s.setKeyOp_outside hrange]
  · obtain ⟨j, rfl⟩ : ∃ j : Reg, index = j.val := ⟨⟨index.toNat, by omega⟩, (Int.toNat_of_nonneg (by omega)).symm⟩
    rw [s.setKeyOp_of_key, State.readKey_writeKey, if_neg (fun he => h (by rw [he]))]

/-- Settles O47: RESET aside only SET_KEY writes keys, and no instruction a step runs does. -/
theorem keysAreLatched : Obligations.KeysAreLatched := by
  intro o s t k h hreset hset
  cases o with
  | reset => exact absurd rfl hreset
  | step =>
    have hkeys : Part.key.Same s t := by
      by_contra hne
      obtain ⟨_, i, _, _, hi⟩ := step_writer h (by simp) hne
      exact key_not_mem_partWrites i hi
    exact hkeys k
  | setKey index p => cases h; exact s.readKey_setKeyOp_ne (fun he => hset p (by rw [he])) p
  | load => cases h; exact (s.frame_loadFrom _ _).2 .key (by simp) k
  | tick | consumeChanged | readDisplay | readChanged | sound | readError | readState => cases h; rfl

/-! ### The skips on a key (R193 to R195) -/

/-- `key_pressed` of R195, by its three conditions. -/
theorem State.eq_keyPressed (s : State) {b : Byte} {pressed : Bool}
    (hkey : ∀ k : Reg, b.toNat = k.val → pressed = s.readKey k)
    (hnone : 16 ≤ b.toNat → s.cfg.keyOor = .notPressed → pressed = false)
    (hmask : ∀ k : Reg, 16 ≤ b.toNat → s.cfg.keyOor = .maskLowNibble → b.toNat % 16 = k.val → pressed = s.readKey k) :
    pressed = s.keyPressed b := by
  unfold State.keyPressed
  split
  case isTrue hle => exact hkey (lowKey b) (Nat.mod_eq_of_lt (by omega)).symm
  case isFalse hgt =>
    cases hoor : s.cfg.keyOor with
    | notPressed => exact hnone (by omega) hoor
    | maskLowNibble => exact hmask (lowKey b) (by omega) hoor rfl

/-- Settles O17: both are a skip, on the key being pressed and on its negation. -/
theorem skipOnKey : Obligations.SkipOnKey := by
  intro x
  refine ⟨decode_encode (i := .skp x) rfl, decode_encode (i := .sknp x) rfl, fun s pressed hkey hnone hmask => ?_⟩
  obtain rfl := s.eq_keyPressed hkey hnone hmask
  refine ⟨⟨_, rfl, s.skipIf_pc _, s.frame_skipIf _⟩, ⟨_, rfl, ?_, s.frame_skipIf _⟩⟩
  rw [State.skipIf_pc]
  cases s.keyPressed (s.readV x) <;> rfl

/-! ### The timers and the keypad (R190 to R192, R199, R200, R204) -/

theorem State.soundOn_eq_decide (s : State) : s.soundOn = decide (s.st ≠ 0) := by
  rw [State.soundOn, bne, beq_eq_decide, decide_not]

/-- Settles O42: SOUND is a test of ST, which Fx18 has set to V[x]. -/
theorem timerInstructions : Obligations.TimerInstructions := by
  intro x
  refine ⟨decode_encode (i := .ldVxDT x) rfl, decode_encode (i := .ldDTVx x) rfl, decode_encode (i := .ldSTVx x) rfl,
    fun s => ⟨⟨_, rfl, s.readV_writeV_self x _, s.frame_writeV x _⟩, ⟨_, rfl, rfl, s.frame_writeDT _⟩,
      ⟨_, rfl, rfl, s.frame_writeST _, ?soundAfter⟩, rfl, ?sound⟩⟩
  case soundAfter => exact congrArg Answer.bit (s.writeST (s.readV x)).soundOn_eq_decide
  case sound => exact congrArg Answer.bit s.soundOn_eq_decide

theorem tickDown_toNat (b : Byte) : (tickDown b).toNat = b.toNat - 1 := by
  rw [tickDown, trunc8_toNat]; omega

/-- Settles O44: natural subtraction is the floor at 0. -/
theorem tickCountsDown : Obligations.TickCountsDown :=
  fun s => ⟨_, rfl, tickDown_toNat s.dt, tickDown_toNat s.st, s.frame_tickOp⟩

/-- Settles O46: an index in range names one key, and any other index none. -/
theorem setKeyWritesOneKey : Obligations.SetKeyWritesOneKey := fun s p =>
  ⟨fun k => ⟨_, congrArg Host.Outcome.next (s.setKeyOp_of_key k p), fun j => s.readKey_writeKey k j p,
    s.frame_writeKey k p⟩, fun _ h => congrArg Host.Outcome.next (s.setKeyOp_outside h p)⟩

end Sys2Proof.Machine
end


section
/-! PROOFS. The exceptions family (60_exceptions.md): that instructions and steps always complete, what the one exception
does, and how the Halted state is left. -/

namespace Sys2Proof.Machine

/-! ### Completion (R213, R225) -/

/-- Settles O11: the meaning of each of the 34 instructions is a next state, whatever its operands and the state. -/
theorem everyInstructionCompletes : Obligations.EveryInstructionCompletes := by
  intro i s
  cases i <;> exact ⟨_, rfl⟩

/-- Settles O10: a step ends before its fetch, runs an instruction, which completes by O11, or takes the exception. -/
theorem everyStepAnswersNext : Obligations.EveryStepAnswersNext := by
  intro s
  cases hbegin : s.beginStep with
  | none => exact ⟨s, step_of_none s hbegin⟩
  | some u =>
    cases hd : decode u.fetchOpcode with
    | ok i => rw [step_of_some s hbegin hd]; exact everyInstructionCompletes i u.advancePc
    | error e => exact ⟨u.illegalOpcode, step_of_illegal s hbegin hd⟩

/-! ### The exception (R211) -/

/-- The exception records an error, whatever WAIT is, so the machine is Halted (R36). -/
theorem State.engine_illegalOpcode (s : State) : s.illegalOpcode.engine = .halted :=
  s.illegalOpcode.engine_halted_iff.2 (Option.some_ne_none _)

/-- Settles O6: a Running machine fetches in the state it is in, so the opcode and the address recorded are its own. -/
theorem unrecognizedOpcodeHalts : Obligations.UnrecognizedOpcodeHalts := by
  intro s e hrun hd
  obtain ⟨herr, hwait⟩ := s.engine_running_iff.1 hrun
  have hstep : step s = .next s.illegalOpcode := step_of_illegal s (s.beginStep_running herr hwait) hd
  have hpc : s.illegalOpcode.pc = s.pc + 2 := congrArg State.pc s.advancePc_eq
  exact ⟨s.illegalOpcode, hstep, rfl, s.engine_illegalOpcode, hpc, s.frame_illegalOpcode⟩

/-! ### The Halted state (R216) -/

/-- Settles O8: RESET clears ERR and WAIT, a Halted machine's STEP does nothing (O7), and no other operation writes ERR. -/
theorem onlyResetLeavesHalted : Obligations.OnlyResetLeavesHalted := by
  intro o s t hhalted h
  by_cases hreset : o = .reset
  · subst hreset; cases h; exact .inl ⟨rfl, rfl⟩
  refine .inr ⟨hreset, ?_⟩
  by_cases hstep : o = .step
  · subst hstep
    obtain rfl : s = t := Host.Outcome.next.inj ((haltedStepChangesNothing s hhalted).symm.trans h)
    exact ⟨hhalted, rfl, fun _ => rfl⟩
  · have hframe := HostOp.frame_run h hreset hstep
    exact ⟨(hframe.engine_eq (by simp) (by simp)).trans hhalted, hframe.2 .err (by simp), fun he => absurd he hstep⟩

end Sys2Proof.Machine
end


section
/-! PROOFS. The reset and load family (70_reset_and_hazards.md): what LOAD stores and keeps, and the first fetch after it. -/

namespace Sys2Proof.Machine

/-! ### LOAD (R243) -/

/-- Settles O49: MemWrite drops the bytes past the end of memory, and no two bytes share an address. -/
theorem loadWritesFromTheLoadOffset : Obligations.LoadWritesFromTheLoadOffset := fun bytes s =>
  ⟨s.loadOp bytes, rfl, fun k hk hin => s.memRead_loadFrom_at 0x200 bytes k hk hin,
    fun a hout => s.memRead_loadFrom_other 0x200 bytes a hout, fun _ hhigh => (s.loadOp bytes).memRead_high hhigh,
    s.frame_loadFrom 0x200 bytes⟩

/-! ### The first fetch (R242) -/

@[simp] theorem State.loadOp_pc (s : State) (bytes : List Byte) : (s.loadOp bytes).pc = s.pc :=
  (s.frame_loadFrom 0x200 bytes).2 .pc (by simp)

@[simp] theorem State.loadOp_engine (s : State) (bytes : List Byte) : (s.loadOp bytes).engine = s.engine :=
  (s.frame_loadFrom 0x200 bytes).engine_eq (by simp) (by simp)

/-- At the load offset, the opcode is the first two bytes loaded. -/
theorem State.fetchOpcode_loadOp (s : State) (hpc : s.pc = 0x200) (b0 b1 : Byte) (rest : List Byte) :
    (s.loadOp (b0 :: b1 :: rest)).fetchOpcode = b0 ++ b1 := by
  have hpc' : (s.loadOp (b0 :: b1 :: rest)).pc.toNat = 0x200 := by rw [State.loadOp_pc, hpc]; rfl
  have h0 : (s.loadOp (b0 :: b1 :: rest)).memRead 0x200 = b0 :=
    s.memRead_loadFrom_at 0x200 (b0 :: b1 :: rest) 0 (by simp) (by decide)
  have h1 : (s.loadOp (b0 :: b1 :: rest)).memRead (0x200 + 1) = b1 :=
    s.memRead_loadFrom_at 0x200 (b0 :: b1 :: rest) 1 (by simp) (by decide)
  rw [State.fetchOpcode_of_lt _ (by rw [hpc']; decide), hpc', h0, h1, opcodeOfBytes]

/-- Settles O50: RESET makes the machine Running at 0x200, and LOAD keeps both. -/
theorem firstFetchAfterLoad : Obligations.FirstFetchAfterLoad := fun s b0 b1 rest =>
  ⟨s.resetOp.loadOp (b0 :: b1 :: rest), rfl, s.resetOp.loadOp_engine _, s.resetOp.loadOp_pc _,
    s.resetOp.fetchOpcode_loadOp rfl b0 b1 rest⟩

end Sys2Proof.Machine
end
